-- ==== Sys2Proof/Word.lean ====
section
/-! DEFINITION. The widths of the block's values and the notation of `00_scope.md` R8, R11, R12. -/

namespace Sys2Proof

/-- A byte: a general register, a timer, a memory cell (R21, R30, R33). -/
abbrev Byte := BitVec 8

/-- A 16-bit value: pc, I, a stack slot, an opcode (R25, R27, R28, R90). -/
abbrev Word := BitVec 16

/-- A register number x or y (R92). -/
abbrev Reg := BitVec 4

/-- A 4-bit field: n, or a low nibble that selects nothing (R92, R99). -/
abbrev Nibble := BitVec 4

/-- A 12-bit address operand nnn (R92). -/
abbrev Addr := BitVec 12

/-- A key vector, bit k for logical key k (R246). -/
abbrev Keys := BitVec 16

/-- The framebuffer: 32 rows of 64 single-bit pixels, bit x of a row for column x (R32, log 15). -/
abbrev FrameBuffer := Vector (BitVec 64) 32

/-- `zext_16` of R11. -/
def zext16 {w : Nat} (v : BitVec w) : Word := v.setWidth 16

/-- MEM_SIZE of R8. -/
abbrev memSize : Nat := 4096

/-- PROG_BASE of R8. -/
abbrev progBase : Nat := 0x200

/-- PROG_MAX of R8. -/
abbrev progMax : Nat := 3584

/-- The font occupies 0x000 to 0x04F: 16 glyphs of 5 bytes (R8, R31). -/
abbrev fontSize : Nat := 80

end Sys2Proof
end

