-- ==== Sys2Proof/Syntax.lean ====
section
/-! DEFINITION. The instructions: one constructor per row of `spec/opcode_table.json`, in the table's order
(`30_encoding.md` R102), the rows' names for the log, and the decoder's reasons to reject. -/

namespace Sys2Proof

/-- An instruction with its operands (R92). Fields the encoding has and the instruction ignores are kept: `n` of
`seReg` and `sneReg` (R99), `y` of `shr` and `shl` (R151, R153); see log 13. -/
inductive Instr where
  | cls
  | ret
  | sys (nnn : Addr)
  | jp (nnn : Addr)
  | call (nnn : Addr)
  | seImm (x : Reg) (kk : Byte)
  | sneImm (x : Reg) (kk : Byte)
  | seReg (x y : Reg) (n : Nibble)
  | ldImm (x : Reg) (kk : Byte)
  | addImm (x : Reg) (kk : Byte)
  | ldReg (x y : Reg)
  | orReg (x y : Reg)
  | andReg (x y : Reg)
  | xorReg (x y : Reg)
  | addReg (x y : Reg)
  | sub (x y : Reg)
  | shr (x y : Reg)
  | subn (x y : Reg)
  | shl (x y : Reg)
  | sneReg (x y : Reg) (n : Nibble)
  | ldI (nnn : Addr)
  | jpV0 (nnn : Addr)
  | rnd (x : Reg) (kk : Byte)
  | drw (x y : Reg) (n : Nibble)
  | skp (x : Reg)
  | sknp (x : Reg)
  | ldVxDt (x : Reg)
  | ldVxK (x : Reg)
  | ldDtVx (x : Reg)
  | ldStVx (x : Reg)
  | addI (x : Reg)
  | ldF (x : Reg)
  | ldB (x : Reg)
  | ldStore (x : Reg)
  | ldLoad (x : Reg)
deriving DecidableEq, Repr

/-- The rows of R102 by name, as a log record's `kind` names them (R247). -/
inductive Row where
  | cls | ret | sys | jp | call | seImm | sneImm | seReg | ldImm | addImm | ldReg | orReg | andReg | xorReg | addReg
  | sub | shr | subn | shl | sneReg | ldI | jpV0 | rnd | drw | skp | sknp | ldVxDt | ldVxK | ldDtVx | ldStVx | addI
  | ldF | ldB | ldStore | ldLoad
deriving DecidableEq, Repr

/-- Why bytes decode to no instruction: the undefined encodings of R101 outside group 0, and too few bytes. -/
inductive DecodeReject where
  /-- Fewer than two bytes. -/
  | truncated
  /-- Group 8 with a selector of no operation (R96). -/
  | undefinedGroup8
  /-- Group E with a selector of no operation (R97). -/
  | undefinedGroupE
  /-- Group F with a selector of no operation (R98). -/
  | undefinedGroupF
  /-- Group 5 or 9 with a low nibble other than 0 while STRICT_5_9 is true (R99). -/
  | strictLowNibble
deriving DecidableEq, Repr

end Sys2Proof
end

