-- ==== Sys2Proof/WellFormed.lean ====
section
/-! DEFINITION. Which instruction terms are the reading of some opcode (`30_encoding.md` R95, R99). -/

namespace Sys2Proof

/-- `strict` is STRICT_5_9. A `sys` at 0x0E0 or 0x0EE would be the word of CLS or RET (R95); a `seReg` or `sneReg` with a
low nibble other than 0 is an undefined encoding when `strict` (R99). Every other term is well formed: its fields have
exactly the encoding's widths (R92). -/
def Instr.wellFormed (strict : Bool) : Instr → Bool
  | .sys nnn => nnn != 0x0E0#12 && nnn != 0x0EE#12
  | .seReg _ _ n => !strict || n == 0#4
  | .sneReg _ _ n => !strict || n == 0#4
  | .cls | .ret => true
  | .jp _ | .call _ | .ldI _ | .jpV0 _ => true
  | .seImm _ _ | .sneImm _ _ | .ldImm _ _ | .addImm _ _ | .rnd _ _ => true
  | .ldReg _ _ | .orReg _ _ | .andReg _ _ | .xorReg _ _ | .addReg _ _ => true
  | .sub _ _ | .shr _ _ | .subn _ _ | .shl _ _ => true
  | .drw _ _ _ => true
  | .skp _ | .sknp _ | .ldVxDt _ | .ldVxK _ | .ldDtVx _ | .ldStVx _ => true
  | .addI _ | .ldF _ | .ldB _ | .ldStore _ | .ldLoad _ => true

end Sys2Proof
end

