-- ==== Sys2Proof/Decode.lean ====
section
/-! DEFINITION. Decoding and encoding (`30_encoding.md` R90 to R102, `20_memory.md` R62). Both are written from the field
table of R90 and the dispatch tables of R94 to R98. -/

namespace Sys2Proof

/-! ### Fields of an opcode (R90) -/

/-- G = op[15:12]. -/
def fieldG (op : Word) : Nibble := op.extractLsb' 12 4

/-- x = op[11:8]. -/
def fieldX (op : Word) : Reg := op.extractLsb' 8 4

/-- y = op[7:4]. -/
def fieldY (op : Word) : Reg := op.extractLsb' 4 4

/-- n = op[3:0]. -/
def fieldN (op : Word) : Nibble := op.extractLsb' 0 4

/-- kk = op[7:0]. -/
def fieldKK (op : Word) : Byte := op.extractLsb' 0 8

/-- nnn = op[11:0]. -/
def fieldNNN (op : Word) : Addr := op.extractLsb' 0 12

/-- The opcode of two fetched bytes: the byte at the lower address is op[15:8] (R62). -/
def opcodeOfBytes (hi lo : Byte) : Word := hi ++ lo

/-! ### Decode -/

/-- Group 0 matches all of op[11:0] (R95). -/
def decodeGroup0 (op : Word) : Instr :=
  if fieldNNN op = 0x0E0#12 then .cls
  else if fieldNNN op = 0x0EE#12 then .ret
  else .sys (fieldNNN op)

/-- Group 8 matches op[3:0] (R96). -/
def decodeGroup8 (op : Word) : Except DecodeReject Instr :=
  match (fieldN op).toNat with
  | 0x0 => .ok (.ldReg (fieldX op) (fieldY op))
  | 0x1 => .ok (.orReg (fieldX op) (fieldY op))
  | 0x2 => .ok (.andReg (fieldX op) (fieldY op))
  | 0x3 => .ok (.xorReg (fieldX op) (fieldY op))
  | 0x4 => .ok (.addReg (fieldX op) (fieldY op))
  | 0x5 => .ok (.sub (fieldX op) (fieldY op))
  | 0x6 => .ok (.shr (fieldX op) (fieldY op))
  | 0x7 => .ok (.subn (fieldX op) (fieldY op))
  | 0xE => .ok (.shl (fieldX op) (fieldY op))
  | _ => .error .undefinedGroup8

/-- Group E matches op[7:0] (R97). -/
def decodeGroupE (op : Word) : Except DecodeReject Instr :=
  if fieldKK op = 0x9E#8 then .ok (.skp (fieldX op))
  else if fieldKK op = 0xA1#8 then .ok (.sknp (fieldX op))
  else .error .undefinedGroupE

/-- Group F matches op[7:0] (R98). -/
def decodeGroupF (op : Word) : Except DecodeReject Instr :=
  if fieldKK op = 0x07#8 then .ok (.ldVxDt (fieldX op))
  else if fieldKK op = 0x0A#8 then .ok (.ldVxK (fieldX op))
  else if fieldKK op = 0x15#8 then .ok (.ldDtVx (fieldX op))
  else if fieldKK op = 0x18#8 then .ok (.ldStVx (fieldX op))
  else if fieldKK op = 0x1E#8 then .ok (.addI (fieldX op))
  else if fieldKK op = 0x29#8 then .ok (.ldF (fieldX op))
  else if fieldKK op = 0x33#8 then .ok (.ldB (fieldX op))
  else if fieldKK op = 0x55#8 then .ok (.ldStore (fieldX op))
  else if fieldKK op = 0x65#8 then .ok (.ldLoad (fieldX op))
  else .error .undefinedGroupF

/-- The low nibble of groups 5 and 9 (R99). -/
def checkLowNibble (strict : Bool) (op : Word) (i : Instr) : Except DecodeReject Instr :=
  if strict = true ∧ fieldN op ≠ 0#4 then .error .strictLowNibble else .ok i

/-- Decode an opcode: dispatch on G (R94), then on the sub-operation (R95 to R98). `strict` is STRICT_5_9. -/
def decode (strict : Bool) (op : Word) : Except DecodeReject Instr :=
  match (fieldG op).toNat with
  | 0x0 => .ok (decodeGroup0 op)
  | 0x1 => .ok (.jp (fieldNNN op))
  | 0x2 => .ok (.call (fieldNNN op))
  | 0x3 => .ok (.seImm (fieldX op) (fieldKK op))
  | 0x4 => .ok (.sneImm (fieldX op) (fieldKK op))
  | 0x5 => checkLowNibble strict op (.seReg (fieldX op) (fieldY op) (fieldN op))
  | 0x6 => .ok (.ldImm (fieldX op) (fieldKK op))
  | 0x7 => .ok (.addImm (fieldX op) (fieldKK op))
  | 0x8 => decodeGroup8 op
  | 0x9 => checkLowNibble strict op (.sneReg (fieldX op) (fieldY op) (fieldN op))
  | 0xA => .ok (.ldI (fieldNNN op))
  | 0xB => .ok (.jpV0 (fieldNNN op))
  | 0xC => .ok (.rnd (fieldX op) (fieldKK op))
  | 0xD => .ok (.drw (fieldX op) (fieldY op) (fieldN op))
  | 0xE => decodeGroupE op
  | _ => decodeGroupF op

/-- Decode any bytes: two form the opcode (R62), the rest is left over. -/
def decodeBytes (strict : Bool) : List Byte → Except DecodeReject (Instr × List Byte)
  | hi :: lo :: rest =>
    match decode strict (opcodeOfBytes hi lo) with
    | .ok i => .ok (i, rest)
    | .error e => .error e
  | [_] => .error .truncated
  | [] => .error .truncated

/-! ### Encode -/

/-- Format A: `gggg nnnn nnnn nnnn` (R91). -/
def formatA (g : Nibble) (nnn : Addr) : Word := g ++ nnn

/-- Format XK: `gggg xxxx kkkk kkkk` (R91). Format XF is this with the selector in kk. -/
def formatXK (g : Nibble) (x : Reg) (kk : Byte) : Word := g ++ (x ++ kk)

/-- Format XYN: `gggg xxxx yyyy nnnn` (R91). Formats XYF and XY are this with the selector, or the low nibble, in n. -/
def formatXYN (g : Nibble) (x y : Reg) (n : Nibble) : Word := g ++ (x ++ (y ++ n))

/-- The opcode of an instruction (the patterns of R102). -/
def encode : Instr → Word
  | .cls => 0x00E0#16
  | .ret => 0x00EE#16
  | .sys nnn => formatA 0x0#4 nnn
  | .jp nnn => formatA 0x1#4 nnn
  | .call nnn => formatA 0x2#4 nnn
  | .seImm x kk => formatXK 0x3#4 x kk
  | .sneImm x kk => formatXK 0x4#4 x kk
  | .seReg x y n => formatXYN 0x5#4 x y n
  | .ldImm x kk => formatXK 0x6#4 x kk
  | .addImm x kk => formatXK 0x7#4 x kk
  | .ldReg x y => formatXYN 0x8#4 x y 0x0#4
  | .orReg x y => formatXYN 0x8#4 x y 0x1#4
  | .andReg x y => formatXYN 0x8#4 x y 0x2#4
  | .xorReg x y => formatXYN 0x8#4 x y 0x3#4
  | .addReg x y => formatXYN 0x8#4 x y 0x4#4
  | .sub x y => formatXYN 0x8#4 x y 0x5#4
  | .shr x y => formatXYN 0x8#4 x y 0x6#4
  | .subn x y => formatXYN 0x8#4 x y 0x7#4
  | .shl x y => formatXYN 0x8#4 x y 0xE#4
  | .sneReg x y n => formatXYN 0x9#4 x y n
  | .ldI nnn => formatA 0xA#4 nnn
  | .jpV0 nnn => formatA 0xB#4 nnn
  | .rnd x kk => formatXK 0xC#4 x kk
  | .drw x y n => formatXYN 0xD#4 x y n
  | .skp x => formatXK 0xE#4 x 0x9E#8
  | .sknp x => formatXK 0xE#4 x 0xA1#8
  | .ldVxDt x => formatXK 0xF#4 x 0x07#8
  | .ldVxK x => formatXK 0xF#4 x 0x0A#8
  | .ldDtVx x => formatXK 0xF#4 x 0x15#8
  | .ldStVx x => formatXK 0xF#4 x 0x18#8
  | .addI x => formatXK 0xF#4 x 0x1E#8
  | .ldF x => formatXK 0xF#4 x 0x29#8
  | .ldB x => formatXK 0xF#4 x 0x33#8
  | .ldStore x => formatXK 0xF#4 x 0x55#8
  | .ldLoad x => formatXK 0xF#4 x 0x65#8

/-- The two bytes of an opcode as memory holds them, lower address first (R62). -/
def bytesOfOpcode (op : Word) : Byte × Byte := (op.extractLsb' 8 8, op.extractLsb' 0 8)

/-- The row of R102 an instruction belongs to. -/
def Instr.row : Instr → Row
  | .cls => .cls
  | .ret => .ret
  | .sys _ => .sys
  | .jp _ => .jp
  | .call _ => .call
  | .seImm _ _ => .seImm
  | .sneImm _ _ => .sneImm
  | .seReg _ _ _ => .seReg
  | .ldImm _ _ => .ldImm
  | .addImm _ _ => .addImm
  | .ldReg _ _ => .ldReg
  | .orReg _ _ => .orReg
  | .andReg _ _ => .andReg
  | .xorReg _ _ => .xorReg
  | .addReg _ _ => .addReg
  | .sub _ _ => .sub
  | .shr _ _ => .shr
  | .subn _ _ => .subn
  | .shl _ _ => .shl
  | .sneReg _ _ _ => .sneReg
  | .ldI _ => .ldI
  | .jpV0 _ => .jpV0
  | .rnd _ _ => .rnd
  | .drw _ _ _ => .drw
  | .skp _ => .skp
  | .sknp _ => .sknp
  | .ldVxDt _ => .ldVxDt
  | .ldVxK _ => .ldVxK
  | .ldDtVx _ => .ldDtVx
  | .ldStVx _ => .ldStVx
  | .addI _ => .addI
  | .ldF _ => .ldF
  | .ldB _ => .ldB
  | .ldStore _ => .ldStore
  | .ldLoad _ => .ldLoad

/-- The host's reading of an opcode-table row: `w` holds the instruction's bits with bit 0 least significant. The word
is laid out as memory holds it, high byte first, and decoded under the default STRICT_5_9 = false (R9). -/
def decodeTableWord (_nbits w : Nat) : Option Instr :=
  let b := bytesOfOpcode (BitVec.ofNat 16 w)
  match decodeBytes false [b.1, b.2] with
  | .ok r => some r.1
  | .error _ => none

end Sys2Proof
end

