-- ==== Sys2Proof/Config.lean ====
section
/-! DEFINITION. The configuration of `00_scope.md` R9, and the free values the spec leaves to the host and to the random
source. Its defaults are in `Machine/Defaults.lean`. -/

namespace Sys2Proof

/-- VF after OR, AND and XOR (R145). -/
inductive LogicVf where
  | unchanged
  | zero
deriving DecidableEq, Repr

/-- pc after RET with an empty stack (R123). -/
inductive RetUnderflowPc where
  | advance
  | hold
deriving DecidableEq, Repr

/-- Stores to the font region 0x000 to 0x04F (R66). -/
inductive FontWrite where
  | ignore
  | write
deriving DecidableEq, Repr

/-- The parameters of R9, arguments of the model: every statement about all states is about every
configuration. Fixed for a machine: no step writes them. -/
structure Config where
  /-- INSTR_FREQ_INIT: cycles per frame at power-on (R251). -/
  instrFreqInit : Nat
  /-- LOG_CAPACITY: the most records the log holds (R44). -/
  logCapacity : Nat
  /-- TICK_HZ: the real-time tick rate of the host; no rule of the block reads it (R231). DESIGN CHOICE, safe (log 20): R9 does
  not say what kind of number it is, and the model holds a natural number, which leaves out fractional rates. -/
  tickHz : Nat
  /-- STEP_TICK_INTERVAL: stepped cycles per tick while Paused (R232). -/
  stepTickInterval : Nat
  /-- FONT: the bytes of 0x000 to 0x04F after a Reset (R31, R250). -/
  font : Vector Byte 80
  /-- LOGIC_VF (R145). -/
  logicVf : LogicVf
  /-- RET_UNDERFLOW_PC (R123). -/
  retUnderflowPc : RetUnderflowPc
  /-- FONT_WRITE (R66). -/
  fontWrite : FontWrite
  /-- STRICT_5_9: groups 5 and 9 check bits 3:0 (R99). -/
  strict59 : Bool
deriving DecidableEq, Repr

namespace Config

/-- The values R9 allows: LOG_CAPACITY is at least 1, and a counter in 0..STEP_TICK_INTERVAL-1 (R40)
needs a positive interval (log 19). -/
abbrev wf (c : Config) : Prop := 1 ≤ c.logCapacity ∧ 1 ≤ c.stepTickInterval

/-- Free value: LOG_CAPACITY less one. The spec gives LOG_CAPACITY no default (R9, D29). DESIGN CHOICE, safe
(log 3). -/
opaque freeLogCapacityPred : Nat

/-- Free value: the key vector of a cycle for which State lists none (R233, R246, U21). Safe (log 4). -/
opaque freeKeys : Nat → Keys

/-- Free value: the random byte of an RND for which State lists none (R160, U5). Safe (log 5). -/
opaque freeRandom : Nat → Byte

end Config

end Sys2Proof
end

