-- ==== Sys2Proof/Machine/Defaults.lean ====
section
/-! DEFINITION. The defaults of `00_scope.md` R9, the font of `10_state.md` R31 among them, and what memory holds after a Reset
(`20_memory.md` R66, `70_reset_and_hazards.md` R250). -/

namespace Sys2Proof.Config

/-- Glyphs 0 to 7 of R31's table. -/
def fontLow : List Byte :=
  [0xF0, 0x90, 0x90, 0x90, 0xF0,
   0x20, 0x60, 0x20, 0x20, 0x70,
   0xF0, 0x10, 0xF0, 0x80, 0xF0,
   0xF0, 0x10, 0xF0, 0x10, 0xF0,
   0x90, 0x90, 0xF0, 0x10, 0x10,
   0xF0, 0x80, 0xF0, 0x10, 0xF0,
   0xF0, 0x80, 0xF0, 0x90, 0xF0,
   0xF0, 0x10, 0x20, 0x40, 0x40]

/-- Glyphs 8 to F of R31's table. -/
def fontHigh : List Byte :=
  [0xF0, 0x90, 0xF0, 0x90, 0xF0,
   0xF0, 0x90, 0xF0, 0x10, 0xF0,
   0xF0, 0x90, 0xF0, 0x90, 0x90,
   0xE0, 0x90, 0xE0, 0x90, 0xE0,
   0xF0, 0x80, 0x80, 0x80, 0xF0,
   0xE0, 0x90, 0x90, 0x90, 0xE0,
   0xF0, 0x80, 0xF0, 0x80, 0xF0,
   0xF0, 0x80, 0xF0, 0x80, 0x80]

/-- The default font of R31 (D23). -/
def fontTable : Vector Byte 80 := ⟨⟨fontLow ++ fontHigh⟩, rfl⟩

/-- The defaults of R9. INSTR_FREQ_INIT has none there: DESIGN CHOICE 60, unsafe (log 2). LOG_CAPACITY has none
there: a free value of at least 1 (log 3). -/
def default : Config where
  instrFreqInit := 60
  logCapacity := freeLogCapacityPred + 1
  tickHz := 60
  stepTickInterval := 60
  font := fontTable
  logicVf := .unchanged
  retUnderflowPc := .advance
  fontWrite := .ignore
  strict59 := false

/-- What a byte of memory reads as after a Reset: FONT below 0x050, 0x00 above (R66, R250). It is also what an address
that memory does not list reads as. -/
def resetByte (c : Config) (a : Nat) : Byte := if h : a < 80 then c.font[a] else 0

end Sys2Proof.Config
end

