-- ==== Sys2Proof/Machine/State.lean ====
section
/-! DEFINITION. The machine's state (`10_state.md` R20, R45, R47), its state after power-on
(`70_reset_and_hazards.md` R250, R251), and the reasons a step can stop. -/

namespace Sys2Proof.Machine

/-- The timing controller's run state (R38). -/
inductive RunState where
  | running
  | paused
deriving DecidableEq, Repr

/-- The conditions of R210. -/
inductive Condition where
  | none
  | stackUnderflow
  | stackOverflow
  | undefinedOpcode
  | fetchFault
  | loadError
deriving DecidableEq, Repr

/-- The `kind` of a log record (R247). -/
inductive RecordKind where
  | row (r : Row)
  | undefined
  | fetchFault
deriving DecidableEq, Repr

/-- A diagnostic log record (R247). -/
structure LogRecord where
  /-- The address of the cycle's instruction, or the faulting pc. -/
  pc : Word
  /-- The opcode fetched; none for a fetch fault. -/
  op : Option Word
  kind : RecordKind
  /-- The condition raised in the cycle. -/
  event : Condition
deriving DecidableEq, Repr

/-- The host's actions (R236). `elapse` is the passing of real time in the timing controller (R41, log 8). -/
inductive HostAction where
  /-- Fire a frame (R230). -/
  | frame
  /-- Step(count) (R238). -/
  | step (count : Nat)
  /-- The pause toggle (R237). -/
  | pauseToggle
  /-- Set frequency(n) (R239). -/
  | setFrequency (n : Nat)
  /-- LoadProgram(src) (R240); `none` is a source that cannot be read. -/
  | loadProgram (src : Option (List Byte))
  /-- Reset (R241). -/
  | reset
  /-- Close (R242). -/
  | close
  /-- Real time passes (R41). -/
  | elapse (t : Nat)
deriving DecidableEq, Repr

/-- Where the timing controller stands (R230, R232). Model's own (log 6). -/
inductive Phase where
  /-- Between frames and between Step requests: where host actions fall (R219). -/
  | boundary
  /-- Inside a frame, with `left` cycles to run before its tick. -/
  | frame (left : Nat)
  /-- Inside a Step request, with `left` cycles to run. -/
  | stepping (left : Nat)
deriving DecidableEq, Repr

/-- Memory: the cells that differ from the reset contents, addresses strictly rising. -/
abbrev Memory := List Host.Cell

structure State where
  /-- The configuration (R9, R47). Model's own: no step writes it (log 1). -/
  cfg : Config
  /-- `mem` (R30). -/
  mem : Memory
  /-- The general registers V0 to VF (R21). -/
  V : Vector Byte 16
  /-- The index register (R27). -/
  I : Word
  /-- The program counter (R25). -/
  pc : Word
  /-- The call stack's slots (R28). -/
  stack : Vector Word 16
  /-- The stack pointer, 0 to 16 (R28, R29, log 16). -/
  SP : Nat
  /-- The framebuffer (R32). -/
  FB : FrameBuffer
  /-- The delay timer (R33). -/
  DT : Byte
  /-- The sound timer (R33). -/
  ST : Byte
  /-- The tone output (R34). -/
  tone : Bool
  /-- The key snapshot (R36). -/
  key : Keys
  /-- The lowest pressed key of the snapshot; `none` is the spec's -1 (R37, log 14). -/
  lastPressed : Option (Fin 16)
  /-- The run state (R38). -/
  runState : RunState
  /-- Cycles per frame (R39). -/
  instrFreq : Nat
  /-- Stepped cycles since the last Step tick (R40). -/
  stepCount : Nat
  /-- Elapsed real time, in a unit the model does not name (R41, log 8). -/
  accum : Nat
  /-- The sticky fetch fault (R42). -/
  faulted : Bool
  /-- The pc of the fetch fault (R42). -/
  faultPc : Word
  /-- The diagnostic log, oldest record first (R44). -/
  log : List LogRecord
  /-- The condition reported in the cycle in progress (R14). Model's own (log 9). -/
  event : Condition
  /-- The result of the last LoadProgram (R240). Model's own (log 9). -/
  hostResult : Condition
  /-- How many drawFrame signals have been sent (R228). Model's own (log 9). -/
  drawFrames : Nat
  /-- Where the timing controller stands. Model's own (log 6). -/
  phase : Phase
  /-- The host's pending actions, oldest first. Model's own (log 6). -/
  hostActions : List HostAction
  /-- Whether the host has closed the run loop (R242). Model's own (log 10). -/
  closed : Bool
  /-- The key vectors supplied for the coming cycles, next first (R246). Model's own (log 4). -/
  keyInputs : List Keys
  /-- The random bytes supplied for the coming RNDs, next first (R160). Model's own (log 5). -/
  randomInputs : List Byte
  /-- The index of the next free value. Model's own (log 4, 5). -/
  freeIndex : Nat
deriving DecidableEq, Repr

/-- Why a step stops. No instruction raises one. -/
inductive Fault where
  /-- The host has closed the run loop: "No further action of any agent follows" (R242). Raised by `step` alone,
  in every state with `closed`. Safe: the spec has no behaviour after it (log 10). -/
  | closed
deriving DecidableEq, Repr

/-- Why an instruction has no meaning. -/
inductive Refusal where
  /-- Not modelled yet. No arm of `exec` raises it. Safe: the machine stops where the hardware goes on. -/
  | notModelled (mnemonic : String)
deriving DecidableEq, Repr

/-- The state after power-on under a configuration: a Reset, with Running, INSTR_FREQ_INIT and an empty log
(R250, R251); the model's own fields are empty (log 4, 5, 6, 9, 10). -/
def State.powerOn (c : Config) : State where
  cfg := c
  mem := []
  V := Vector.replicate 16 0
  I := 0x0000
  pc := 0x0200
  stack := Vector.replicate 16 0
  SP := 0
  FB := Vector.replicate 32 0
  DT := 0
  ST := 0
  tone := false
  key := 0
  lastPressed := none
  runState := .running
  instrFreq := c.instrFreqInit
  stepCount := 0
  accum := 0
  faulted := false
  faultPc := 0x0000
  log := []
  event := .none
  hostResult := .none
  drawFrames := 0
  phase := .boundary
  hostActions := []
  closed := false
  keyInputs := []
  randomInputs := []
  freeIndex := 0

/-- The machine right after reset, under the defaults of R9. -/
def State.reset : State := State.powerOn Config.default

end Sys2Proof.Machine
end

