-- ==== Sys2Proof/Machine/Ops.lean ====
section
/-! DEFINITION. The named operations over memory, registers, the stack, the log and the inputs, and the recording of
conditions. R12 to R14 name them; `20_memory.md` governs memory, `60_exceptions.md` the conditions. -/

namespace Sys2Proof.Machine

/-! ### Memory -/

/-- `InMem(a)` (R13, R68). -/
abbrev inMem (a : Nat) : Prop := a < memSize

/-- The listed value of an address. -/
def Memory.lookup (a : Nat) : Memory → Option Byte
  | [] => none
  | c :: rest => if c.1 = a then some c.2 else Memory.lookup a rest

/-- `MemRead(a, 1)` (R13): the listed byte, else the reset contents. -/
def Memory.read (c : Config) (m : Memory) (a : Nat) : Byte := (m.lookup a).getD (c.resetByte a)

/-- Store one byte and keep the canonical form: addresses strictly rising, no cell equal to `bg`, the byte its
address has after a Reset. -/
def Memory.put (bg : Byte) (a : Nat) (v : Byte) : Memory → Memory
  | [] => if v = bg then [] else [(a, v)]
  | c :: rest =>
    if a < c.1 then (if v = bg then c :: rest else (a, v) :: c :: rest)
    else if a = c.1 then (if v = bg then rest else (a, v) :: rest)
    else c :: Memory.put bg a v rest

/-- A plain store of one byte. -/
def Memory.write (c : Config) (m : Memory) (a : Nat) (v : Byte) : Memory := m.put (c.resetByte a) a v

/-- Plain stores at rising addresses. -/
def Memory.writeAll (c : Config) (a : Nat) : List Byte → Memory → Memory
  | [], m => m
  | b :: bs, m => Memory.writeAll c (a + 1) bs (m.write c a b)

/-- The canonical form under a configuration: strictly rising addresses, all of them in memory, and no cell equal to
what its address reads as when it is not listed. -/
abbrev Memory.wf (c : Config) (m : Memory) : Prop :=
  m.Pairwise (fun p q => p.1 < q.1) ∧ ∀ p ∈ m, p.1 < memSize ∧ p.2 ≠ c.resetByte p.1

/-- The byte at an address of the state's memory. Callers test `inMem` first (R13). -/
def State.readByte (s : State) (a : Nat) : Byte := s.mem.read s.cfg a

/-- Whether FONT_WRITE lets an instruction store to an address (R66). -/
abbrev writable (c : Config) (a : Nat) : Prop := ¬ (a < fontSize ∧ c.fontWrite = .ignore)

/-- `MemWrite(a, 1, v)` (R13) under the font-region policy (R66): a store the policy ignores has no effect. -/
def State.memWrite (s : State) (a : Nat) (v : Byte) : State :=
  if writable s.cfg a then { s with mem := s.mem.write s.cfg a v } else s

/-- A store that is skipped when the address is out of range (R67). -/
def State.memWriteIn (s : State) (a : Nat) (v : Byte) : State :=
  if inMem a then s.memWrite a v else s

/-- The opcode at pc, big-endian (R62). -/
def State.fetch (s : State) : Word :=
  opcodeOfBytes (s.readByte s.pc.toNat) (s.readByte (s.pc.toNat + 1))

/-! ### Registers -/

/-- `V[x]` (R12). -/
def State.getV (s : State) (x : Reg) : Byte := s.V[x.toNat]

/-- `V[x] <- v` (R12). -/
def State.setV (s : State) (x : Reg) (v : Byte) : State := { s with V := s.V.set x.toNat v x.isLt }

/-- VF is V[15] (R22). -/
abbrev vf : Reg := 15#4

/-- `I <- v`. -/
def State.setI (s : State) (v : Word) : State := { s with I := v }

/-- `pc <- target` (R14). -/
def State.setPc (s : State) (target : Word) : State := { s with pc := target }

/-- `advance` (R14). -/
def State.advance (s : State) : State := s.setPc (s.pc + 2)

/-- `hold` (R14). -/
def State.hold (s : State) : State := s

/-- `skip_if(c)` (R14, R121). -/
def State.skipIf (s : State) (c : Bool) : State := s.setPc (s.pc + if c then 4 else 2)

/-! ### Call stack -/

/-- A slot of the call stack. Slots exist at 0..15; outside them this reads 0, in no reachable state (log 16). -/
def State.slot (s : State) (k : Nat) : Word := if h : k < 16 then s.stack[k] else 0

/-- `stack[SP] <- v; SP <- SP + 1` (R28, R125). The caller has tested `SP < 16`. -/
def State.push (s : State) (v : Word) : State :=
  { s with stack := s.stack.setIfInBounds s.SP v, SP := s.SP + 1 }

/-- `SP <- SP - 1` (R28, R123): the popped slot is not cleared. The caller has tested `SP ≠ 0`. -/
def State.pop (s : State) : State := { s with SP := s.SP - 1 }

/-! ### Conditions (R210). None transfers control: there is no trap entry and no return from one (R216, R217). -/

/-- The condition codes of R210. -/
def Condition.code : Condition → Nat
  | .none => 0
  | .stackUnderflow => 1
  | .stackOverflow => 2
  | .undefinedOpcode => 3
  | .fetchFault => 4
  | .loadError => 5

/-- `report E` (R14): the condition goes into the cycle's record. -/
def State.report (s : State) (e : Condition) : State := { s with event := e }

/-- An undefined encoding: `hold`, `report UndefinedOpcode(op)` (R100, R213). The opcode is the record's `op`. -/
def State.undefinedEncoding (s : State) : State := s.hold.report .undefinedOpcode

/-- `raise FetchFault(pc)` (R105, R214). -/
def State.raiseFetchFault (s : State) : State :=
  { s.report .fetchFault with faulted := true, faultPc := s.pc }

/-! ### Log -/

/-- Append to a ring of at most `cap` records: the oldest are evicted first (R44). -/
def ringAppend (cap : Nat) (l : List LogRecord) (r : LogRecord) : List LogRecord :=
  (l ++ [r]).drop (l.length + 1 - cap)

/-- Append the cycle's record (R247): its event is the condition the cycle reported. -/
def State.appendRecord (s : State) (pc : Word) (op : Option Word) (kind : RecordKind) : State :=
  { s with log := ringAppend s.cfg.logCapacity s.log ⟨pc, op, kind, s.event⟩ }

/-! ### Inputs -/

/-- The key vector of the coming cycle: the next one supplied, else a free value (R233, R246, log 4). -/
def State.nextKeys (s : State) : Keys :=
  match s.keyInputs with
  | k :: _ => k
  | [] => Config.freeKeys s.freeIndex

/-- The state once that vector is taken. -/
def State.dropKeys (s : State) : State :=
  match s.keyInputs with
  | _ :: rest => { s with keyInputs := rest }
  | [] => { s with freeIndex := s.freeIndex + 1 }

/-- `draw_random()`: the next random byte supplied, else a free value (R160, log 5). -/
def State.nextRandom (s : State) : Byte :=
  match s.randomInputs with
  | b :: _ => b
  | [] => Config.freeRandom s.freeIndex

/-- The state once that byte is drawn. -/
def State.dropRandom (s : State) : State :=
  match s.randomInputs with
  | _ :: rest => { s with randomInputs := rest }
  | [] => { s with freeIndex := s.freeIndex + 1 }

/-- The lowest pressed key of a vector, none if no key is pressed (R37). -/
def lowestKey (k : Keys) : Option (Fin 16) := (List.finRange 16).find? (fun i => k.getLsbD i.val)

end Sys2Proof.Machine
end

