-- ==== Sys2Proof/Machine/Controller.lean ====
section
/-! DEFINITION. The timer tick and the host's actions that run no cycle (`60_exceptions.md` R225 to R228, R236 to R243;
`70_reset_and_hazards.md` R250). -/

namespace Sys2Proof.Machine

/-- A timer counts down, floored at 0 (R225). -/
def countDown (t : Byte) : Byte := if t.toNat > 0 then t - 1 else t

/-- The timer tick (R225): both timers count down, tone is recomputed from the new ST (R226), and drawFrame is signalled
(R228). -/
def State.tick (s : State) : State :=
  { s with
    DT := countDown s.DT
    ST := countDown s.ST
    tone := decide ((countDown s.ST).toNat > 0)
    drawFrames := s.drawFrames + 1 }

/-- Reset (R250, R241). runState, instrFreq and the log are unchanged, and so are the configuration and the model's own
inputs, outputs and schedule. -/
def State.hostReset (s : State) : State :=
  { s with
    mem := []
    V := Vector.replicate 16 0
    I := 0x0000
    pc := 0x0200
    stack := Vector.replicate 16 0
    SP := 0
    FB := Vector.replicate 32 0
    DT := 0
    ST := 0
    tone := false
    key := 0
    lastPressed := none
    stepCount := 0
    accum := 0
    faulted := false
    faultPc := 0x0000
    event := .none }

/-- The bytes LoadProgram accepts: a source that can be read and holds at most PROG_MAX bytes (R240). -/
def loadable : Option (List Byte) → Option (List Byte)
  | none => none
  | some b => if b.length > progMax then none else some b

/-- LoadProgram's result: ok (no condition) or LoadError (R215, R240). -/
def loadResult (src : Option (List Byte)) : Condition :=
  match loadable src with
  | none => .loadError
  | some _ => .none

/-- LoadProgram's effect (R240): a Reset, then plain stores from 0x200 upward when the source loads. -/
def State.loadProgram (s : State) (src : Option (List Byte)) : State :=
  match loadable src with
  | none => s.hostReset
  | some b => { s.hostReset with mem := Memory.writeAll s.cfg progBase b [] }

/-- The pause toggle's effect on the run state (R237). -/
def RunState.toggle : RunState → RunState
  | .running => .paused
  | .paused => .running

/-- The pause toggle (R237). -/
def State.pauseToggle (s : State) : State := { s with runState := s.runState.toggle }

/-- Set frequency(n) (R239). -/
def State.setFrequency (s : State) (n : Nat) : State := { s with instrFreq := n }

/-- Close (R242). -/
def State.close (s : State) : State := { s with closed := true }

/-- Real time passes: the controller accumulates it while Running (R41, log 8). -/
def State.elapse (s : State) (t : Nat) : State :=
  match s.runState with
  | .running => { s with accum := s.accum + t }
  | .paused => s

end Sys2Proof.Machine
end

