-- ==== Sys2Proof/Machine/Flags.lean ====
section
/-! DEFINITION. The values written to VF as a flag (`41_alu.md` R145, R148 to R153) and the order of the writes. -/

namespace Sys2Proof.Machine

/-- A flag as a register value: 0 or 1. -/
def flagByte (f : Bool) : Byte := if f then 1 else 0

/-- ADD: the 9-bit sum is above 255 (R149). -/
def addCarry (a b : Byte) : Bool := decide (a.toNat + b.toNat > 255)

/-- SUB: the minuend is above the subtrahend (R150); SUBN is this with its operands reversed (R152). -/
def subNoBorrow (a b : Byte) : Bool := decide (a.toNat > b.toNat)

/-- SHR: the low bit, which is shifted out (R151). -/
def shiftRightOut (a : Byte) : Bool := a.getLsbD 0

/-- SHL: the high bit, which is shifted out (R153). -/
def shiftLeftOut (a : Byte) : Bool := a.getLsbD 7

/-- The write order of the flagged operations: the result to Vx, then the flag to VF, so that with x = F the flag stays
(R148). -/
def State.setResultAndFlag (s : State) (x : Reg) (r : Byte) (f : Bool) : State :=
  (s.setV x r).setV vf (flagByte f)

/-- VF after a logic operation, by LOGIC_VF (R145): unchanged, or cleared after the result is written. -/
def State.logicVfPolicy (s : State) : State :=
  match s.cfg.logicVf with
  | .unchanged => s
  | .zero => s.setV vf 0

end Sys2Proof.Machine
end

