-- ==== Sys2Proof/Machine/Operands.lean ====
section
/-! DEFINITION. The operand forms (`30_encoding.md` R92): registers, immediates, the address operand, I as a base, and
V0 + nnn; and the values the key, font, BCD and sprite instructions form from them. -/

namespace Sys2Proof.Machine

/-- The address operand: `zext_16(nnn)` (R92). -/
def addrOperand (nnn : Addr) : Word := zext16 nnn

/-- The target of JP V0: `zext_16(V[0]) + zext_16(nnn)`, with no mask (R130). -/
def jumpOffsetTarget (s : State) (nnn : Addr) : Word := zext16 (s.getV 0) + zext16 nnn

/-- "I as base": the address I + k as an exact integer, with no 16-bit wrap (R173). -/
def indexAddr (s : State) (k : Nat) : Nat := s.I.toNat + k

/-- Register Vk for a count k (R170, R171: k runs over 0..x). -/
def regOf (k : Nat) : Reg := BitVec.ofNat 4 k

/-- Whether the key numbered by a byte is pressed in the snapshot; an index of 16 or more reads as not pressed
(R196). -/
def keyPressed (s : State) (k : Byte) : Bool := if k.toNat < 16 then s.key.getLsbD k.toNat else false

/-- The address of glyph v: v × 5, unmasked (R167). -/
def glyphAddr (v : Byte) : Word := zext16 v * 5

/-- The BCD digits of a byte: hundreds, tens, units (R169). -/
def bcdDigit (v : Byte) : Nat → Byte
  | 0 => BitVec.ofNat 8 (v.toNat / 100)
  | 1 => BitVec.ofNat 8 (v.toNat / 10 % 10)
  | _ => BitVec.ofNat 8 (v.toNat % 10)

/-- The number of a key as a register value (R199). -/
def keyNumber (k : Fin 16) : Byte := BitVec.ofNat 8 k.val

/-- The column of a sprite's origin: V[x] mod 64 (R182). -/
def spriteColumn (v : Byte) : Nat := v.toNat % 64

/-- The row of a sprite's origin: V[y] mod 32 (R182). -/
def spriteRow (v : Byte) : Nat := v.toNat % 32

end Sys2Proof.Machine
end

