-- ==== Sys2Proof/Machine/Alu.lean ====
section
/-! DEFINITION. Register loads, ALU and random (`41_alu.md` R140 to R160). -/

namespace Sys2Proof.Machine

/-- LD Vx, kk (R141). -/
def execLdImm (x : Reg) (kk : Byte) (s : State) : Host.Outcome State Fault Refusal :=
  .next (s.setV x kk).advance

/-- ADD Vx, kk (R142): no flag. -/
def execAddImm (x : Reg) (kk : Byte) (s : State) : Host.Outcome State Fault Refusal :=
  .next (s.setV x (s.getV x + kk)).advance

/-- LD Vx, Vy (R143). -/
def execLdReg (x y : Reg) (s : State) : Host.Outcome State Fault Refusal :=
  .next (s.setV x (s.getV y)).advance

/-- OR Vx, Vy (R144, R145). -/
def execOr (x y : Reg) (s : State) : Host.Outcome State Fault Refusal :=
  .next (s.setV x (s.getV x ||| s.getV y)).logicVfPolicy.advance

/-- AND Vx, Vy (R146, R145). -/
def execAnd (x y : Reg) (s : State) : Host.Outcome State Fault Refusal :=
  .next (s.setV x (s.getV x &&& s.getV y)).logicVfPolicy.advance

/-- XOR Vx, Vy (R147, R145). -/
def execXor (x y : Reg) (s : State) : Host.Outcome State Fault Refusal :=
  .next (s.setV x (s.getV x ^^^ s.getV y)).logicVfPolicy.advance

/-- ADD Vx, Vy (R149, R148). -/
def execAddReg (x y : Reg) (s : State) : Host.Outcome State Fault Refusal :=
  .next (s.setResultAndFlag x (s.getV x + s.getV y) (addCarry (s.getV x) (s.getV y))).advance

/-- SUB Vx, Vy (R150, R148). -/
def execSub (x y : Reg) (s : State) : Host.Outcome State Fault Refusal :=
  .next (s.setResultAndFlag x (s.getV x - s.getV y) (subNoBorrow (s.getV x) (s.getV y))).advance

/-- SHR Vx (R151, R148): the y field is ignored. -/
def execShr (x _y : Reg) (s : State) : Host.Outcome State Fault Refusal :=
  .next (s.setResultAndFlag x (s.getV x >>> 1) (shiftRightOut (s.getV x))).advance

/-- SUBN Vx, Vy (R152, R148). -/
def execSubn (x y : Reg) (s : State) : Host.Outcome State Fault Refusal :=
  .next (s.setResultAndFlag x (s.getV y - s.getV x) (subNoBorrow (s.getV y) (s.getV x))).advance

/-- SHL Vx (R153, R148): the y field is ignored. -/
def execShl (x _y : Reg) (s : State) : Host.Outcome State Fault Refusal :=
  .next (s.setResultAndFlag x (s.getV x <<< 1) (shiftLeftOut (s.getV x))).advance

/-- RND Vx, kk (R160): the drawn byte is an input of the step (log 5). -/
def execRnd (x : Reg) (kk : Byte) (s : State) : Host.Outcome State Fault Refusal :=
  .next (s.dropRandom.setV x (s.nextRandom &&& kk)).advance

end Sys2Proof.Machine
end

