-- ==== Sys2Proof/Machine/Control.lean ====
section
/-! DEFINITION. Control transfer (`40_control_flow.md` R120 to R133) and the undefined encodings of group 0
(`30_encoding.md` R95, R100). -/

namespace Sys2Proof.Machine

/-- RET (R123, R211). -/
def execRet (s : State) : Host.Outcome State Fault Refusal :=
  .next <|
    if s.SP = 0 then
      match s.cfg.retUnderflowPc with
      | .advance => (s.report .stackUnderflow).advance
      | .hold => (s.report .stackUnderflow).hold
    else s.pop.setPc (s.slot (s.SP - 1) + 2)

/-- SYS nnn: an undefined encoding (R95, R100). -/
def execSys (_nnn : Addr) (s : State) : Host.Outcome State Fault Refusal :=
  .next s.undefinedEncoding

/-- JP nnn (R124). -/
def execJp (nnn : Addr) (s : State) : Host.Outcome State Fault Refusal :=
  .next (s.setPc (addrOperand nnn))

/-- CALL nnn (R125, R212): the saved value is the CALL's own address. -/
def execCall (nnn : Addr) (s : State) : Host.Outcome State Fault Refusal :=
  .next <|
    if s.SP ≥ 16 then (s.report .stackOverflow).advance
    else (s.push s.pc).setPc (addrOperand nnn)

/-- SE Vx, kk (R126). -/
def execSeImm (x : Reg) (kk : Byte) (s : State) : Host.Outcome State Fault Refusal :=
  .next (s.skipIf (s.getV x == kk))

/-- SNE Vx, kk (R127). -/
def execSneImm (x : Reg) (kk : Byte) (s : State) : Host.Outcome State Fault Refusal :=
  .next (s.skipIf (s.getV x != kk))

/-- SE Vx, Vy (R128). The low nibble is ignored unless STRICT_5_9, when one other than 0 makes the encoding undefined
(R99). -/
def execSeReg (x y : Reg) (n : Nibble) (s : State) : Host.Outcome State Fault Refusal :=
  .next <|
    if s.cfg.strict59 = true ∧ n ≠ 0#4 then s.undefinedEncoding
    else s.skipIf (s.getV x == s.getV y)

/-- SNE Vx, Vy (R129), with the low nibble as in `execSeReg` (R99). -/
def execSneReg (x y : Reg) (n : Nibble) (s : State) : Host.Outcome State Fault Refusal :=
  .next <|
    if s.cfg.strict59 = true ∧ n ≠ 0#4 then s.undefinedEncoding
    else s.skipIf (s.getV x != s.getV y)

/-- JP V0, nnn (R130): the target is not masked to 12 bits (R131). -/
def execJpV0 (nnn : Addr) (s : State) : Host.Outcome State Fault Refusal :=
  .next (s.setPc (jumpOffsetTarget s nnn))

end Sys2Proof.Machine
end

