-- ==== Sys2Proof/Machine/Display.lean ====
section
/-! DEFINITION. The framebuffer's pixel-write logic (`43_display.md` R180 to R185). -/

namespace Sys2Proof.Machine

/-- `FB[px][py]` (R14): 0 outside the 64 × 32 grid, where the spec has no pixel. -/
def pixel (fb : FrameBuffer) (px py : Nat) : Bool := if h : py < 32 then fb[py].getLsbD px else false

/-- The framebuffer as the flat array the host is handed: pixel (x, y) at index y·64 + x (R32, R244). -/
def flatPixels (fb : FrameBuffer) : List Bool :=
  (List.range 2048).map (fun k => pixel fb (k % 64) (k / 64))

/-- Toggle one pixel. -/
def togglePixel (fb : FrameBuffer) (px py : Nat) : FrameBuffer :=
  if h : py < 32 then fb.set py (fb[py] ^^^ BitVec.twoPow 64 px) h else fb

/-- A drawing in progress: the framebuffer, and whether a set pixel has been cleared (R182's `c`). -/
abbrev Drawing := FrameBuffer × Bool

/-- `xor_pixel(px, py)` (R181), its answer gathered into `c`. -/
def xorPixel (px py : Nat) (d : Drawing) : Drawing :=
  (togglePixel d.1 px py, d.2 || pixel d.1 px py)

/-- Column b of a sprite row: bit 7 - b; a clear bit, or a column past the edge, draws nothing (R182). -/
def drawColumn (x0 py : Nat) (row : Byte) (b : Nat) (d : Drawing) : Drawing :=
  if row.getLsbD (7 - b) then (if x0 + b < 64 then xorPixel (x0 + b) py d else d) else d

/-- Columns b, b + 1, …, `left` of them. -/
def drawColumns (x0 py : Nat) (row : Byte) : (left b : Nat) → Drawing → Drawing
  | 0, _, d => d
  | left + 1, b, d => drawColumns x0 py row left (b + 1) (drawColumn x0 py row b d)

/-- Rows r, r + 1, …, `left` of them, read at I + r; drawing stops at the first address out of range, and a row past the
edge is dropped (R182). -/
def drawRows (s : State) (x0 y0 : Nat) : (left r : Nat) → Drawing → Drawing
  | 0, _, d => d
  | left + 1, r, d =>
    if inMem (indexAddr s r) then
      drawRows s x0 y0 left (r + 1)
        (if y0 + r < 32 then drawColumns x0 (y0 + r) (s.readByte (indexAddr s r)) 8 0 d else d)
    else d

/-- The drawing of `DRW Vx, Vy, n` in a state, from no collision (R182). -/
def drawSprite (s : State) (x y : Reg) (n : Nibble) : Drawing :=
  drawRows s (spriteColumn (s.getV x)) (spriteRow (s.getV y)) n.toNat 0 (s.FB, false)

/-- CLS (R180). -/
def execCls (s : State) : Host.Outcome State Fault Refusal :=
  .next (State.advance { s with FB := Vector.replicate 32 0 })

/-- DRW Vx, Vy, n (R182): VF is written after all pixels. -/
def execDrw (x y : Reg) (n : Nibble) (s : State) : Host.Outcome State Fault Refusal :=
  .next (State.setV { s with FB := (drawSprite s x y n).1 } vf (flagByte (drawSprite s x y n).2)).advance

end Sys2Proof.Machine
end

