-- ==== Sys2Proof/Machine/IndexMemory.lean ====
section
/-! DEFINITION. The index register and memory instructions (`42_index_memory.md` R165 to R173). -/

namespace Sys2Proof.Machine

/-- Store V[i], V[i+1], … at I + i, I + i + 1, …, `left` registers, stopping at the first address out of range (R170). -/
def storeRegs : (left i : Nat) → State → State
  | 0, _, s => s
  | left + 1, i, s =>
    if inMem (indexAddr s i) then
      storeRegs left (i + 1) (s.memWrite (indexAddr s i) (s.getV (regOf i)))
    else s

/-- Load V[i], V[i+1], … from I + i, I + i + 1, …, `left` registers, stopping at the first address out of range (R171). -/
def loadRegs : (left i : Nat) → State → State
  | 0, _, s => s
  | left + 1, i, s =>
    if inMem (indexAddr s i) then
      loadRegs left (i + 1) (s.setV (regOf i) (s.readByte (indexAddr s i)))
    else s

/-- LD I, nnn (R165). -/
def execLdI (nnn : Addr) (s : State) : Host.Outcome State Fault Refusal :=
  .next (s.setI (addrOperand nnn)).advance

/-- ADD I, Vx (R166): modulo 2^16, VF not written. -/
def execAddI (x : Reg) (s : State) : Host.Outcome State Fault Refusal :=
  .next (s.setI (s.I + zext16 (s.getV x))).advance

/-- LD F, Vx (R167). -/
def execLdF (x : Reg) (s : State) : Host.Outcome State Fault Refusal :=
  .next (s.setI (glyphAddr (s.getV x))).advance

/-- LD B, Vx (R169): a digit whose address is out of range is skipped. -/
def execLdB (x : Reg) (s : State) : Host.Outcome State Fault Refusal :=
  .next
    (((s.memWriteIn (indexAddr s 0) (bcdDigit (s.getV x) 0)).memWriteIn
      (indexAddr s 1) (bcdDigit (s.getV x) 1)).memWriteIn
      (indexAddr s 2) (bcdDigit (s.getV x) 2)).advance

/-- LD [I], Vx (R170): I is unchanged. -/
def execLdStore (x : Reg) (s : State) : Host.Outcome State Fault Refusal :=
  .next (storeRegs (x.toNat + 1) 0 s).advance

/-- LD Vx, [I] (R171): I is unchanged. -/
def execLdLoad (x : Reg) (s : State) : Host.Outcome State Fault Refusal :=
  .next (loadRegs (x.toNat + 1) 0 s).advance

end Sys2Proof.Machine
end

