-- ==== Sys2Proof/Machine/KeysTimers.lean ====
section
/-! DEFINITION. The key and timer instructions (`44_keys_timers.md` R195 to R202). -/

namespace Sys2Proof.Machine

/-- SKP Vx (R196). -/
def execSkp (x : Reg) (s : State) : Host.Outcome State Fault Refusal :=
  .next (s.skipIf (keyPressed s (s.getV x)))

/-- SKNP Vx (R197). -/
def execSknp (x : Reg) (s : State) : Host.Outcome State Fault Refusal :=
  .next (s.skipIf (!keyPressed s (s.getV x)))

/-- LD Vx, DT (R198). -/
def execLdVxDt (x : Reg) (s : State) : Host.Outcome State Fault Refusal :=
  .next (s.setV x s.DT).advance

/-- LD Vx, K (R199): with no key pressed the instruction holds and runs again in the next cycle. -/
def execLdVxK (x : Reg) (s : State) : Host.Outcome State Fault Refusal :=
  .next <|
    match s.lastPressed with
    | none => s.hold
    | some k => (s.setV x (keyNumber k)).advance

/-- LD DT, Vx (R200). -/
def execLdDtVx (x : Reg) (s : State) : Host.Outcome State Fault Refusal :=
  .next (State.advance { s with DT := s.getV x })

/-- LD ST, Vx (R201): tone is not updated. -/
def execLdStVx (x : Reg) (s : State) : Host.Outcome State Fault Refusal :=
  .next (State.advance { s with ST := s.getV x })

end Sys2Proof.Machine
end

