-- ==== Sys2Proof/Machine/Cycle.lean ====
section
/-! DEFINITION. The instruction cycle (`30_encoding.md` R104, R105). -/

namespace Sys2Proof.Machine

/-- Go on from a next state; a fault or a refusal stays what it is. -/
def andThen (o : Host.Outcome State Fault Refusal) (f : State → Host.Outcome State Fault Refusal) :
    Host.Outcome State Fault Refusal :=
  match o with
  | .next s => f s
  | .fault r => .fault r
  | .refused r => .refused r

/-- Step 1 of the cycle: the key snapshot and `lastPressed` (R104, R36, R37); no condition is reported yet. -/
def State.sampleInput (s : State) (keys : Keys) : State :=
  { s with key := keys, lastPressed := lowestKey keys, event := .none }

/-- The `kind` of an instruction's record (R247). SYS is an undefined encoding (R95, log 12). -/
def recordKind (i : Instr) : RecordKind :=
  match i.row with
  | .sys => .undefined
  | r => .row r

/-- Steps 3 to 5 for an opcode fetched at the state's pc: decode, execute, append the record (R104). -/
def executeOpcode (op : Word) (s : State) : Host.Outcome State Fault Refusal :=
  match decode s.cfg.strict59 op with
  | .ok i => andThen (exec i s) (fun t => .next (t.appendRecord s.pc (some op) (recordKind i)))
  | .error _ => .next (s.undefinedEncoding.appendRecord s.pc (some op) .undefined)

/-- Steps 2 to 5: fetch, or the fetch fault when pc > 0xFFE (R104, R105). -/
def fetchExecute (s : State) : Host.Outcome State Fault Refusal :=
  if s.pc.toNat > 0xFFE then .next (s.raiseFetchFault.appendRecord s.pc none .fetchFault)
  else executeOpcode s.fetch s

/-- One cycle (R104). A faulted core does nothing (R214). -/
def cycle (hostKeys : Keys) (s : State) : Host.Outcome State Fault Refusal :=
  if s.faulted then .next s else fetchExecute (s.sampleInput hostKeys)

end Sys2Proof.Machine
end

