-- ==== Sys2Proof/Machine/Schedule.lean ====
section
/-! DEFINITION. The timing controller (`60_exceptions.md` R229 to R235): frames and Step requests as the whole transitions the
spec gives, and the same cut into single cycles, so that a step of the machine runs one (log 6, 7). -/

namespace Sys2Proof.Machine

/-- A cycle with the key vector the host supplies for it (R233); a faulted cycle takes its vector too (log 18). -/
def runCycle (s : State) : Host.Outcome State Fault Refusal := cycle s.nextKeys s.dropKeys

/-! ### Whole transitions -/

/-- n cycles in sequence. -/
def runCycles : Nat → State → Host.Outcome State Fault Refusal
  | 0, s => .next s
  | n + 1, s => andThen (runCycle s) (runCycles n)

/-- The end of a frame: the tick, then `accum <- 0` (R230). -/
def State.finishFrame (s : State) : State := { s.tick with accum := 0 }

/-- A frame (R230): instrFreq cycles, read once at the start, then the tick. -/
def frame (s : State) : Host.Outcome State Fault Refusal :=
  andThen (runCycles s.instrFreq s) (fun t => .next t.finishFrame)

/-- The bookkeeping after a stepped cycle: a tick at every STEP_TICK_INTERVAL-th (R232). -/
def State.countStepped (s : State) : State :=
  if s.stepCount + 1 = s.cfg.stepTickInterval then { s.tick with stepCount := 0 }
  else { s with stepCount := s.stepCount + 1 }

/-- The cycles of a Step request (R232). -/
def runStepped : Nat → State → Host.Outcome State Fault Refusal
  | 0, s => .next s
  | n + 1, s => andThen (runCycle s) (fun t => runStepped n t.countStepped)

/-- Step(count): ignored while Running (R232, R238). -/
def stepRequest (count : Nat) (s : State) : Host.Outcome State Fault Refusal :=
  match s.runState with
  | .running => .next s
  | .paused => runStepped count s

/-! ### One cycle at a time -/

/-- Set where the timing controller stands. -/
def State.setPhase (s : State) (p : Phase) : State := { s with phase := p }

/-- One step inside a frame with `left` cycles to go: run one; the last is followed by the frame's end. With none to go,
which happens for instrFreq = 0 alone, only the end (R230, D39). -/
def frameStep (left : Nat) (s : State) : Host.Outcome State Fault Refusal :=
  match left with
  | 0 => .next (s.finishFrame.setPhase .boundary)
  | 1 => andThen (runCycle s) (fun t => .next (t.finishFrame.setPhase .boundary))
  | k + 2 => andThen (runCycle s) (fun t => .next (t.setPhase (.frame (k + 1))))

/-- One step inside a Step request with `left` cycles to go (R232). -/
def steppingStep (left : Nat) (s : State) : Host.Outcome State Fault Refusal :=
  match left with
  | 0 => .next (s.setPhase .boundary)
  | 1 => andThen (runCycle s) (fun t => .next (t.countStepped.setPhase .boundary))
  | k + 2 => andThen (runCycle s) (fun t => .next (t.countStepped.setPhase (.stepping (k + 1))))

/-- A host action at a boundary (R229, R236). A frame or a Step runs its first cycle at once. -/
def applyAction (a : HostAction) (s : State) : Host.Outcome State Fault Refusal :=
  match a with
  | .frame =>
    match s.runState with
    | .running => frameStep s.instrFreq s
    | .paused => .next s
  | .step count =>
    match s.runState with
    | .running => .next s
    | .paused => steppingStep count s
  | .pauseToggle => .next s.pauseToggle
  | .setFrequency n => .next (s.setFrequency n)
  | .loadProgram src => .next { s.loadProgram src with hostResult := loadResult src }
  | .reset => .next s.hostReset
  | .close => .next s.close
  | .elapse t => .next (s.elapse t)

/-- A step at a boundary: the host's oldest pending action; with none pending, a frame while Running (R231) and nothing
while Paused (R229, log 11). -/
def boundaryStep (s : State) : Host.Outcome State Fault Refusal :=
  match s.hostActions with
  | a :: rest => applyAction a { s with hostActions := rest }
  | [] =>
    match s.runState with
    | .running => frameStep s.instrFreq s
    | .paused => .next s

/-- One step of the machine (R7, R219). After a close nothing follows (R242). -/
def machineStep (s : State) : Host.Outcome State Fault Refusal :=
  if s.closed then .fault .closed
  else
    match s.phase with
    | .frame left => frameStep left s
    | .stepping left => steppingStep left s
    | .boundary => boundaryStep s

/-! ### Placing an instruction -/

/-- Whether the next step runs a cycle that fetches. -/
def fetchDue (s : State) : Bool :=
  !s.closed && !s.faulted && decide (s.pc.toNat ≤ 0xFFE) &&
    match s.phase with
    | .frame left => decide (left ≠ 0)
    | .stepping left => decide (left ≠ 0)
    | .boundary => decide (s.hostActions = [] ∧ s.runState = .running ∧ s.instrFreq ≠ 0)

/-- The state with a fetch due: unchanged if one is; else the close and the fault undone, pc at the program's base if it
is past memory, and one cycle of a frame to go (log 17). -/
def readyToFetch (s : State) : State :=
  if fetchDue s then s
  else
    { s with
      closed := false
      faulted := false
      pc := if s.pc.toNat ≤ 0xFFE then s.pc else 0x0200
      phase := .frame 1 }

/-- The state with an opcode's two bytes stored at pc, as the host's load stores them: with no font check (R240). -/
def placeOpcode (s : State) (op : Word) : State :=
  { s with
    mem := (s.mem.write s.cfg s.pc.toNat (bytesOfOpcode op).1).write s.cfg (s.pc.toNat + 1) (bytesOfOpcode op).2 }

end Sys2Proof.Machine
end

