-- ==== Sys2Proof/Machine/Step.lean ====
section
/-! DEFINITION. The machine's step, and the placing of an instruction where the step fetches it. -/

namespace Sys2Proof.Machine

/-- One step: a cycle of a frame or of a Step request with what the timing controller adds to it, or a host action
(`60_exceptions.md` R229). -/
def step (s : State) : Host.Outcome State Fault Refusal := machineStep s

/-- `s` with the instruction whose bits are `w` stored where `step` fetches next (log 17). -/
def State.withFetchWord (s : State) (_nbits w : Nat) : State :=
  placeOpcode (readyToFetch s) (BitVec.ofNat 16 w)

end Sys2Proof.Machine
end

