-- ==== Sys2Proof/Safety.lean ====
section
/-! DEFINITION. The terms claims are stated in: the invariant of the machine, and the spec's own descriptions that are not
steps of its pseudocode (which opcodes are undefined, which pixels a sprite covers, which condition a cycle reports, what the
timing controller adds to a cycle). -/

namespace Sys2Proof.Safety

open Sys2Proof.Machine

/-! ### The invariant -/

/-- SP is in [0, 16] (R29). -/
def stackPointerInRange (s : State) : Prop := s.SP ≤ 16

/-- Every live return address is the address of a CALL that was fetched (R28, R105). -/
def returnAddressesFetched (s : State) : Prop := ∀ k, k < s.SP → (s.slot k).toNat ≤ 0xFFE

/-- The largest value an instruction writes to pc is 0x10FE (R26). -/
def pcBounded (s : State) : Prop := s.pc.toNat ≤ 0x10FE

/-- Memory keeps its canonical form. -/
def memoryCanonical (s : State) : Prop := s.mem.wf s.cfg

/-- Under FONT_WRITE = ignore the font region reads as FONT (R66). -/
def fontIntact (s : State) : Prop :=
  s.cfg.fontWrite = .ignore → ∀ a, a < fontSize → s.readByte a = s.cfg.resetByte a

/-- The log holds at most LOG_CAPACITY records (R44). -/
def logBounded (s : State) : Prop := s.log.length ≤ s.cfg.logCapacity

/-- LoadError never appears in a log record (R210). -/
def logOfCycles (s : State) : Prop := ∀ r ∈ s.log, r.event ≠ .loadError

/-- stepCount is in 0..STEP_TICK_INTERVAL-1 (R40). -/
def stepCountBounded (s : State) : Prop := s.stepCount < s.cfg.stepTickInterval

/-- lastPressed is the lowest index k with key[k] = 1, or none (R37). -/
def snapshotConsistent (s : State) : Prop :=
  match s.lastPressed with
  | none => ∀ k, k < 16 → s.key.getLsbD k = false
  | some k => s.key.getLsbD k.val = true ∧ ∀ j, j < k.val → s.key.getLsbD j = false

/-- The fault registers: a fault is of the pc it stopped at, which is past 0xFFE; without one faultPc is 0 (R42, R105). -/
def faultConsistent (s : State) : Prop :=
  if s.faulted then s.faultPc = s.pc ∧ s.pc.toNat > 0xFFE else s.faultPc = 0

/-- A frame is in progress only while Running, a Step request only while Paused, each with a cycle to go (R229, R219). -/
def phaseConsistent (s : State) : Prop :=
  match s.phase with
  | .boundary => True
  | .frame left => s.runState = .running ∧ 1 ≤ left
  | .stepping left => s.runState = .paused ∧ 1 ≤ left

/-- The invariant of the machine. -/
structure Inv (s : State) : Prop where
  config : s.cfg.wf
  stackPointer : stackPointerInRange s
  returnAddresses : returnAddressesFetched s
  pc : pcBounded s
  memory : memoryCanonical s
  font : fontIntact s
  log : logBounded s
  logEvents : logOfCycles s
  stepCount : stepCountBounded s
  snapshot : snapshotConsistent s
  fault : faultConsistent s
  phase : phaseConsistent s

/-! ### Encodings -/

/-- The undefined encodings, as R101 lists them. -/
def undefinedEncoding (strict : Bool) (op : Word) : Prop :=
  (fieldG op = 0x0#4 ∧ op ≠ 0x00E0#16 ∧ op ≠ 0x00EE#16) ∨
  (fieldG op = 0x8#4 ∧
    fieldN op ∈ [0x8#4, 0x9#4, 0xA#4, 0xB#4, 0xC#4, 0xD#4, 0xF#4]) ∨
  (fieldG op = 0xE#4 ∧ fieldKK op ∉ [0x9E#8, 0xA1#8]) ∨
  (fieldG op = 0xF#4 ∧
    fieldKK op ∉ [0x07#8, 0x0A#8, 0x15#8, 0x18#8, 0x1E#8, 0x29#8, 0x33#8, 0x55#8, 0x65#8]) ∨
  ((fieldG op = 0x5#4 ∨ fieldG op = 0x9#4) ∧ fieldN op ≠ 0#4 ∧ strict = true)

/-! ### Cycles -/

/-- The condition an instruction reports (R210, R219): RET and CALL at the ends of the stack, and the encodings that are
undefined. -/
def reportedCondition (i : Instr) (s : State) : Condition :=
  match i with
  | .ret => if s.SP = 0 then .stackUnderflow else .none
  | .call _ => if s.SP ≥ 16 then .stackOverflow else .none
  | .sys _ => .undefinedOpcode
  | _ => .none

/-- The cycle with each of the key vectors in turn (R104). -/
def cyclesWith : List Keys → State → Host.Outcome State Fault Refusal
  | [], s => .next s
  | k :: ks, s => andThen (cycle k s) (cyclesWith ks)

/-- What the timing controller adds after the cycle of a frame with `left` cycles to go (R230). -/
def afterFrameCycle (left : Nat) (t : State) : State :=
  if left ≤ 1 then t.finishFrame.setPhase .boundary else t.setPhase (.frame (left - 1))

/-- What the timing controller adds after the cycle of a Step request with `left` cycles to go (R232). -/
def afterStepCycle (left : Nat) (t : State) : State :=
  if left ≤ 1 then t.countStepped.setPhase .boundary else t.countStepped.setPhase (.stepping (left - 1))

/-! ### Who writes and reads what -/

/-- The instructions that write VF as a flag (R154, R145). -/
def writesVfAsFlag (c : Config) : Instr → Bool
  | .addReg _ _ | .sub _ _ | .shr _ _ | .subn _ _ | .shl _ _ | .drw _ _ _ => true
  | .orReg _ _ | .andReg _ _ | .xorReg _ _ => c.logicVf == .zero
  | _ => false

/-- The instructions that name VF as an ordinary destination register (R22): x = F. -/
def namesVfAsDestination : Instr → Bool
  | .ldImm x _ | .addImm x _ | .rnd x _ | .ldReg x _ | .orReg x _ | .andReg x _ | .xorReg x _ => x == vf
  | .ldVxDt x | .ldVxK x | .ldLoad x => x == vf
  | _ => false

/-- `s` with the state outside the instructions' reach taken from `o`: tone, the controller, the fault registers, the log, and
the host's side (R45). -/
def withControllerOf (s o : State) : State :=
  { s with
    tone := o.tone, runState := o.runState, instrFreq := o.instrFreq, stepCount := o.stepCount, accum := o.accum
    faulted := o.faulted, faultPc := o.faultPc, log := o.log, hostResult := o.hostResult, drawFrames := o.drawFrames
    phase := o.phase, hostActions := o.hostActions, closed := o.closed, keyInputs := o.keyInputs }

/-! ### Sprites -/

/-- Pixel (px, py) lies under a set bit of the sprite that DRW Vx, Vy, n draws: row py - y0 of the sprite is in memory and
its bit for column px - x0 is 1 (R182). Columns and rows past the edge are no pixels. -/
def spriteCovers (s : State) (x y : Reg) (n : Nibble) (px py : Nat) : Prop :=
  spriteRow (s.getV y) ≤ py ∧ py < spriteRow (s.getV y) + n.toNat ∧
  spriteColumn (s.getV x) ≤ px ∧ px < spriteColumn (s.getV x) + 8 ∧
  inMem (indexAddr s (py - spriteRow (s.getV y))) ∧
  (s.readByte (indexAddr s (py - spriteRow (s.getV y)))).getLsbD (7 - (px - spriteColumn (s.getV x))) = true

end Sys2Proof.Safety
end

