-- ==== Sys2Proof/Certificates/Slice0/Obligations.lean ====
section
/-! DEFINITION. The statements for the provers. Each docstring names the rules of `spec/` the statement formalises. A statement
about memory after a store has the premise that memory is canonical, which `Obligations.StepKeepsInvariant` shows every
step keeps. The fields `event` and `hostResult` are the model's own: they hold what a cycle reports and what a load answers (log 9). -/

open Sys2Proof Sys2Proof.Machine Sys2Proof.Safety

/-! ### Encoding -/

/-- R90 to R102: decoding the word of a well-formed instruction, or its two bytes in memory order (R62), gives the instruction
back, with every operand, under both values of STRICT_5_9. -/
def Obligations.DecodeOfEncode : Prop :=
  ∀ (strict : Bool) (i : Instr) (rest : List Byte), i.wellFormed strict = true →
    decode strict (encode i) = .ok i ∧
    decodeBytes strict ((bytesOfOpcode (encode i)).1 :: (bytesOfOpcode (encode i)).2 :: rest) = .ok (i, rest)

/-- A word that decodes is the word of the instruction it decodes to, and that instruction is well formed: no two words mean the
same instruction term. This rests on a choice of the model's, log 13: terms keep the fields an instruction ignores. By the spec
several words have one operation: 5xyN and 9xyN for every N unless STRICT_5_9 (R99), 8xy6 and 8xyE for every y (R151, R153). -/
def Obligations.EncodeOfDecode : Prop :=
  ∀ (strict : Bool) (op : Word) (i : Instr), decode strict op = .ok i →
    encode i = op ∧ i.wellFormed strict = true

/-- R101, R100, R213: an opcode of R101's list executes as a no-op that holds pc, changes nothing but the reported condition and
the log, and is what the next fetch reads again; every other opcode decodes to an instruction that is not SYS; and SYS nnn,
executed, is that no-op for every nnn. That the record's kind is UNDEFINED for a SYS opcode too is the model's reading, log 12:
R247 offers the row's name as well. The reported condition is in the model's field `event`, log 9. -/
def Obligations.UndefinedEncodings : Prop :=
  ∀ (s : State) (op : Word),
    (undefinedEncoding s.cfg.strict59 op →
      ∃ t, executeOpcode op s = .next t ∧ t.pc = s.pc ∧ t.fetch = s.fetch ∧
        t = { s with
          event := .undefinedOpcode
          log := ringAppend s.cfg.logCapacity s.log ⟨s.pc, some op, .undefined, .undefinedOpcode⟩ }) ∧
    (¬ undefinedEncoding s.cfg.strict59 op →
      ∃ i, decode s.cfg.strict59 op = .ok i ∧ ∀ nnn, i ≠ .sys nnn) ∧
    ∀ nnn, exec (.sys nnn) s = .next { s with event := .undefinedOpcode }

/-- R94 to R99, on words written out from the spec's tables. -/
def Obligations.SpecWordsDecode : Prop :=
  decode false 0x00E0#16 = .ok .cls ∧ decode false 0x00EE#16 = .ok .ret ∧ decode false 0x0123#16 = .ok (.sys 0x123#12) ∧
  decode false 0x1345#16 = .ok (.jp 0x345#12) ∧ decode false 0x332A#16 = .ok (.seImm 3#4 0x2A#8) ∧
  decode false 0x5121#16 = .ok (.seReg 1#4 2#4 1#4) ∧ decode true 0x5121#16 = .error .strictLowNibble ∧
  decode false 0x8127#16 = .ok (.subn 1#4 2#4) ∧ decode false 0x8008#16 = .error .undefinedGroup8 ∧
  decode false 0xD102#16 = .ok (.drw 1#4 0#4 2#4) ∧ decode false 0xE0A1#16 = .ok (.sknp 0#4) ∧
  decode false 0xF50A#16 = .ok (.ldVxK 5#4) ∧ decode false 0xF255#16 = .ok (.ldStore 2#4)

/-! ### Reset and loading -/

/-- R251: the power-on state is a state that Reset does not change, with Running, INSTR_FREQ_INIT and an empty log. -/
def Obligations.PowerOnState : Prop :=
  (∀ c : Config, (State.powerOn c).hostReset = State.powerOn c ∧ (State.powerOn c).runState = .running ∧
    (State.powerOn c).instrFreq = c.instrFreqInit ∧ (State.powerOn c).log = []) ∧
  State.reset = State.powerOn Config.default

/-- R250: Reset sets every element of the state, and leaves runState, instrFreq and the log. -/
def Obligations.ResetSetsEveryElement : Prop :=
  ∀ s : State, ∃ t, applyAction .reset s = .next t ∧ t = s.hostReset ∧
    (∀ a, (h : a < 80) → t.readByte a = s.cfg.font[a]) ∧ (∀ a, 80 ≤ a → a < memSize → t.readByte a = 0) ∧
    (∀ r, t.getV r = 0) ∧ (∀ k, k < 16 → t.slot k = 0) ∧ t.I = 0 ∧ t.SP = 0 ∧ t.pc = 0x0200 ∧
    t.DT = 0 ∧ t.ST = 0 ∧ t.tone = false ∧ (∀ px py, px < 64 → py < 32 → pixel t.FB px py = false) ∧
    t.key = 0 ∧ t.lastPressed = none ∧ t.stepCount = 0 ∧ t.accum = 0 ∧ t.faulted = false ∧ t.faultPc = 0 ∧
    t.runState = s.runState ∧ t.instrFreq = s.instrFreq ∧ t.log = s.log

/-- R253: Reset is idempotent; Reset then LoadProgram is LoadProgram, in state and result; after any Reset the font region reads
as FONT, whatever FONT_WRITE is, and SP is 0. -/
def Obligations.ResetLaws : Prop :=
  ∀ (s : State) (src : Option (List Byte)),
    s.hostReset.hostReset = s.hostReset ∧
    s.hostReset.loadProgram src = s.loadProgram src ∧
    applyAction (.loadProgram src) s.hostReset = applyAction (.loadProgram src) s ∧
    (∀ a, (h : a < 80) → s.hostReset.readByte a = s.cfg.font[a]) ∧ s.hostReset.SP = 0

/-- R240, R215: LoadProgram fails with LoadError (in the model's field for a result, log 9), leaving a clean reset, when the source
cannot be read or has more than 3584 bytes; otherwise it succeeds, the bytes stand from 0x200 upward, every other byte and every other element is as after Reset. -/
def Obligations.LoadProgramEffect : Prop :=
  ∀ s : State,
    applyAction (.loadProgram none) s = .next { s.hostReset with hostResult := .loadError } ∧
    ∀ b : List Byte,
      (b.length > 3584 → applyAction (.loadProgram (some b)) s = .next { s.hostReset with hostResult := .loadError }) ∧
      (b.length ≤ 3584 → ∃ t, applyAction (.loadProgram (some b)) s = .next t ∧
        t = { s.hostReset with hostResult := .none, mem := t.mem } ∧ t.mem.wf s.cfg ∧
        (∀ k, (h : k < b.length) → t.readByte (0x200 + k) = b[k]) ∧
        (∀ a, (a < 0x200 ∨ 0x200 + b.length ≤ a) → t.readByte a = s.hostReset.readByte a))

/-- R256: a block that was reset but never loaded, or loaded with an empty program, decodes 0x0000 at 0x200 in every cycle:
it holds there, with memory still as after Reset, and the cycle's record reports UndefinedOpcode. That the record's kind is
UNDEFINED and not the name of SYS is the model's reading, log 12; R256 does not say it. -/
def Obligations.EmptyBlockHolds : Prop :=
  ∀ (s : State) (ks : List Keys) (k : Keys), ∃ t u,
    s.loadProgram (some []) = s.hostReset ∧
    cyclesWith ks s.hostReset = .next t ∧ t.pc = 0x0200 ∧ t.mem = [] ∧ t.faulted = false ∧ t.DT = 0 ∧ t.ST = 0 ∧
    cycle k t = .next u ∧ u.pc = 0x0200 ∧
    u.log = ringAppend s.cfg.logCapacity t.log ⟨0x0200, some 0x0000, .undefined, .undefinedOpcode⟩

/-! ### The cycle -/

/-- R104: with a cycle due and pc fetchable, a step executes the instruction that the fetched bytes decode to, on the state with the
cycle's key snapshot, appends the cycle's record, and adds what the timing controller adds: in a frame with `left` to go, in
a Step with `left` to go, and at a boundary with nothing pending while Running. The model's choices, which no rule states: a step
is one cycle, and a Running block at a boundary with nothing pending fires a frame (log 6); the frame's tick, and a stepped
cycle's bookkeeping, belong to the step of the cycle they follow (log 7); the key vector comes from the host's list or is a free
value (log 4). -/
def Obligations.StepRunsDecodedInstruction : Prop :=
  ∀ (s : State) (i : Instr) (left : Nat), s.closed = false → s.faulted = false → s.pc.toNat ≤ 0xFFE →
    decode s.cfg.strict59 s.fetch = .ok i → 1 ≤ left →
    ∃ u, exec i (s.dropKeys.sampleInput s.nextKeys) = .next u ∧
      ((s.phase = .frame left ∨
          (s.phase = .boundary ∧ s.hostActions = [] ∧ s.runState = .running ∧ s.instrFreq = left)) →
        step s = .next (afterFrameCycle left (u.appendRecord s.pc (some s.fetch) (recordKind i)))) ∧
      (s.phase = .stepping left →
        step s = .next (afterStepCycle left (u.appendRecord s.pc (some s.fetch) (recordKind i))))

/-- R242 and the model's schedule (log 6, 10): a step of a block that is not closed always completes; a step of a closed block
is the fault `closed`. -/
def Obligations.StepCompletesUnlessClosed : Prop :=
  ∀ s : State, (s.closed = false → ∃ t, step s = .next t) ∧ (s.closed = true → step s = .fault .closed)

/-- R105: a cycle that begins with pc above 0xFFE sets faulted and faultPc, logs (pc, none, FETCHFAULT, FetchFault), and changes
nothing else but the key snapshot of its step 1. -/
def Obligations.FetchFaultCycle : Prop :=
  ∀ (s : State) (k : Keys), s.faulted = false → s.pc.toNat > 0xFFE →
    ∃ t, cycle k s = .next t ∧
      t = { s with
        key := k, lastPressed := t.lastPressed, event := .fetchFault, faulted := true, faultPc := s.pc
        log := ringAppend s.cfg.logCapacity s.log ⟨s.pc, none, .fetchFault, .fetchFault⟩ }

/-- R214, R234: in a faulted block a frame runs its cycles as no-ops and ticks once; nothing else changes but the key vectors
taken for the cycles. A Step's cycles are no-ops as well: nothing else changes but the timers, tone, the drawFrame count
(log 9), stepCount and the key vectors. Under an allowed configuration (R9, log 19), with stepCount in its range, n stepped cycles are counted,
stepCount moving on by n modulo STEP_TICK_INTERVAL, and tick once for every STEP_TICK_INTERVAL of them (R232). The vectors that
faulted cycles take: log 18. -/
def Obligations.FaultedBlockOnlyTicks : Prop :=
  ∀ s : State, s.faulted = true →
    (∀ k, cycle k s = .next s) ∧
    (∃ t, frame s = .next t ∧
      t = { s.tick with accum := 0, keyInputs := t.keyInputs, freeIndex := t.freeIndex }) ∧
    (∀ n, ∃ t, runStepped n s = .next t ∧
      t = { s with
        DT := t.DT, ST := t.ST, tone := t.tone, drawFrames := t.drawFrames, stepCount := t.stepCount
        keyInputs := t.keyInputs, freeIndex := t.freeIndex } ∧
      (s.cfg.wf → stepCountBounded s →
        t.stepCount = (s.stepCount + n) % s.cfg.stepTickInterval ∧
        t.DT = (State.tick^[(s.stepCount + n) / s.cfg.stepTickInterval] s).DT ∧
        t.ST = (State.tick^[(s.stepCount + n) / s.cfg.stepTickInterval] s).ST ∧
        t.tone = (State.tick^[(s.stepCount + n) / s.cfg.stepTickInterval] s).tone ∧
        t.drawFrames = s.drawFrames + (s.stepCount + n) / s.cfg.stepTickInterval))

/-- R214, R42: only Reset and LoadProgram clear `faulted`: a step from a faulted block leaves it faulted at the same pc, unless it
takes one of these two actions from the host. -/
def Obligations.FaultIsSticky : Prop :=
  ∀ s t : State, step s = .next t → s.faulted = true →
    (t.faulted = true ∧ t.faultPc = s.faultPc ∧ t.pc = s.pc) ∨
    (s.phase = .boundary ∧ ∃ rest, s.hostActions = .reset :: rest ∨ ∃ src, s.hostActions = .loadProgram src :: rest)

/-- R104 step 1, R36, R37: after a cycle of a block that is not faulted, the snapshot is the cycle's key vector, and
lastPressed is its lowest pressed key, or none when no key is pressed. -/
def Obligations.CycleTakesKeySnapshot : Prop :=
  ∀ (s : State) (k : Keys), s.faulted = false →
    ∃ t, cycle k s = .next t ∧ t.key = k ∧ (t.lastPressed = none ↔ k = 0) ∧
      ∀ j : Fin 16, t.lastPressed = some j →
        k.getLsbD j.val = true ∧ ∀ l, l < j.val → k.getLsbD l = false

/-- R247, R219, R210: a cycle of a block that is not faulted appends exactly one record: its pc, the opcode fetched (none for a
fetch fault), its kind, and the one condition the cycle reports. That a SYS record has the kind UNDEFINED is the model's reading,
log 12: R247 offers the row's name as well. -/
def Obligations.CycleLogsOneRecord : Prop :=
  ∀ (s : State) (k : Keys), s.faulted = false →
    ∃ t r, cycle k s = .next t ∧ t.log = ringAppend s.cfg.logCapacity s.log r ∧ r.pc = s.pc ∧
      (s.pc.toNat > 0xFFE → r.op = none ∧ r.kind = .fetchFault ∧ r.event = .fetchFault) ∧
      (s.pc.toNat ≤ 0xFFE → r.op = some s.fetch ∧
        (∀ e, decode s.cfg.strict59 s.fetch = .error e → r.kind = .undefined ∧ r.event = .undefinedOpcode) ∧
        (∀ i, decode s.cfg.strict59 s.fetch = .ok i → r.event = reportedCondition i s ∧
          ((∀ nnn, i ≠ .sys nnn) → r.kind = .row i.row) ∧ ((∃ nnn, i = .sys nnn) → r.kind = .undefined)))

/-- R44: the log is a ring: a record is appended at the end, and a full ring first evicts its oldest record. -/
def Obligations.LogIsRing : Prop :=
  ∀ (cap : Nat) (l : List LogRecord) (r : LogRecord), 1 ≤ cap → l.length ≤ cap →
    (l.length < cap → ringAppend cap l r = l ++ [r]) ∧
    (∀ old rest, l = old :: rest → l.length = cap → ringAppend cap l r = rest ++ [r]) ∧
    (ringAppend cap l r).length ≤ cap

/-! ### Control transfer -/

/-- R124, R130: JP sets pc to nnn; JP V0 sets it to V0 + nnn, never masked. Nothing else changes. -/
def Obligations.Jumps : Prop :=
  ∀ (s : State) (nnn : Addr),
    (∃ t, exec (.jp nnn) s = .next t ∧ t.pc.toNat = nnn.toNat ∧ t = { s with pc := t.pc }) ∧
    (∃ t, exec (.jpV0 nnn) s = .next t ∧ t.pc.toNat = (s.getV 0).toNat + nnn.toNat ∧ t = { s with pc := t.pc })

/-- R121, R126 to R129: the four register skips go to pc + 4 when their condition holds and to pc + 2 otherwise, and change nothing
else. The low nibble of 5xyN and 9xyN is ignored unless STRICT_5_9, when one other than 0 is an undefined encoding (R99). -/
def Obligations.RegisterSkips : Prop :=
  ∀ (s : State) (x y : Reg) (kk : Byte) (n : Nibble),
    exec (.seImm x kk) s = .next { s with pc := s.pc + if s.getV x = kk then 4 else 2 } ∧
    exec (.sneImm x kk) s = .next { s with pc := s.pc + if s.getV x = kk then 2 else 4 } ∧
    ((s.cfg.strict59 = false ∨ n = 0) →
      exec (.seReg x y n) s = .next { s with pc := s.pc + if s.getV x = s.getV y then 4 else 2 } ∧
      exec (.sneReg x y n) s = .next { s with pc := s.pc + if s.getV x = s.getV y then 2 else 4 }) ∧
    (s.cfg.strict59 = true → n ≠ 0 →
      exec (.seReg x y n) s = .next { s with event := .undefinedOpcode } ∧
      exec (.sneReg x y n) s = .next { s with event := .undefinedOpcode })

/-- R125, R212: CALL saves its own address in the slot at SP, increments SP and goes to nnn; at SP ≥ 16 the call is dropped,
StackOverflow is reported and pc advances. Nothing else changes. -/
def Obligations.CallEffect : Prop :=
  ∀ (s : State) (nnn : Addr),
    (s.SP < 16 → ∃ t, exec (.call nnn) s = .next t ∧ t.pc.toNat = nnn.toNat ∧ t.SP = s.SP + 1 ∧
      (∀ k, k < 16 → t.slot k = if k = s.SP then s.pc else s.slot k) ∧
      t = { s with pc := t.pc, SP := t.SP, stack := t.stack }) ∧
    (s.SP ≥ 16 → exec (.call nnn) s = .next { s with event := .stackOverflow, pc := s.pc + 2 })

/-- R123, R211: RET decrements SP and goes to the slot at the new SP plus 2, without clearing the slot; at SP = 0 it reports
StackUnderflow, and pc advances or holds by RET_UNDERFLOW_PC. Nothing else changes. (SP ≤ 16 is R29.) -/
def Obligations.RetEffect : Prop :=
  ∀ s : State,
    (1 ≤ s.SP → s.SP ≤ 16 → ∃ t, exec .ret s = .next t ∧ t.pc = s.slot (s.SP - 1) + 2 ∧ t.SP = s.SP - 1 ∧
      t = { s with pc := t.pc, SP := t.SP }) ∧
    (s.SP = 0 → s.cfg.retUnderflowPc = .advance →
      exec .ret s = .next { s with event := .stackUnderflow, pc := s.pc + 2 }) ∧
    (s.SP = 0 → s.cfg.retUnderflowPc = .hold → exec .ret s = .next { s with event := .stackUnderflow })

/-- R132: a CALL followed by the matching RET, with any code between that leaves SP and the saved slot as it found them, resumes at
the CALL's address plus 2 with SP at its value before the call. -/
def Obligations.CallThenReturn : Prop :=
  ∀ (s : State) (nnn : Addr), s.SP < 16 →
    ∃ t, exec (.call nnn) s = .next t ∧
      ∀ u : State, u.SP = t.SP → u.slot s.SP = t.slot s.SP →
        ∃ w, exec .ret u = .next w ∧ w.pc = s.pc + 2 ∧ w.SP = s.SP

/-- R133, R29: CALL increments SP only from SP ≤ 15, RET decrements it only from SP ≥ 1, no other instruction writes SP, and Reset
sets it to 0; so SP stays in [0, 16]. -/
def Obligations.OnlyCallAndRetWriteSP : Prop :=
  (∀ s : State, s.hostReset.SP = 0) ∧
  ∀ (i : Instr) (s t : State), exec i s = .next t →
    (t.SP ≠ s.SP →
      ((∃ nnn, i = .call nnn) ∧ s.SP ≤ 15 ∧ t.SP = s.SP + 1) ∨ (i = .ret ∧ 1 ≤ s.SP ∧ t.SP = s.SP - 1)) ∧
    (s.SP ≤ 16 → t.SP ≤ 16)

/-- R106, R25: every instruction leaves pc in one of four ways: pc + 2; pc + 4, skips alone; the target of JP, CALL, RET or
JP V0; or unchanged, which only Fx0A with no key, RET on underflow under `hold` and the undefined encodings do of themselves. -/
def Obligations.PcChangesInFourWays : Prop :=
  ∀ (i : Instr) (s t : State), exec i s = .next t →
    t.pc = s.pc + 2 ∨
    (t.pc = s.pc + 4 ∧
      ((∃ x kk, i = .seImm x kk ∨ i = .sneImm x kk) ∨ (∃ x y n, i = .seReg x y n ∨ i = .sneReg x y n) ∨
        (∃ x, i = .skp x ∨ i = .sknp x))) ∨
    (∃ nnn, (i = .jp nnn ∨ (i = .call nnn ∧ s.SP < 16)) ∧ t.pc.toNat = nnn.toNat) ∨
    (i = .ret ∧ 1 ≤ s.SP ∧ t.pc = s.slot (s.SP - 1) + 2) ∨
    (∃ nnn, i = .jpV0 nnn ∧ t.pc.toNat = (s.getV 0).toNat + nnn.toNat) ∨
    (t.pc = s.pc ∧
      ((∃ x, i = .ldVxK x ∧ s.lastPressed = none) ∨
        (i = .ret ∧ s.SP = 0 ∧ s.cfg.retUnderflowPc = .hold) ∨
        (∃ nnn, i = .sys nnn) ∨
        (s.cfg.strict59 = true ∧ ∃ x y n, n ≠ 0#4 ∧ (i = .seReg x y n ∨ i = .sneReg x y n))))

/-! ### Register loads, ALU, random -/

/-- R141 to R143: LD Vx, kk; ADD Vx, kk modulo 256 with no flag; LD Vx, Vy. Every other register keeps its value, VF among them
when x is not F; pc advances; nothing else changes. -/
def Obligations.RegisterLoads : Prop :=
  ∀ (s : State) (x y : Reg) (kk : Byte),
    (∃ t, exec (.ldImm x kk) s = .next t ∧ t.getV x = kk ∧ (∀ r, r ≠ x → t.getV r = s.getV r) ∧
      t = { s with pc := s.pc + 2, V := t.V }) ∧
    (∃ t, exec (.addImm x kk) s = .next t ∧ (t.getV x).toNat = ((s.getV x).toNat + kk.toNat) % 256 ∧
      (∀ r, r ≠ x → t.getV r = s.getV r) ∧ t = { s with pc := s.pc + 2, V := t.V }) ∧
    (∃ t, exec (.ldReg x y) s = .next t ∧ t.getV x = s.getV y ∧ (∀ r, r ≠ x → t.getV r = s.getV r) ∧
      t = { s with pc := s.pc + 2, V := t.V })

/-- R144 to R147: OR, AND and XOR, bit by bit; VF is then cleared when LOGIC_VF is `zero`, even as the destination, and otherwise
written only as the destination. -/
def Obligations.LogicOperations : Prop :=
  ∀ (s : State) (x y : Reg),
    (∃ t, exec (.orReg x y) s = .next t ∧ t = { s with pc := s.pc + 2, V := t.V } ∧
      ∀ r, if r = vf ∧ s.cfg.logicVf = .zero then t.getV r = 0
        else if r = x then ∀ b, b < 8 → (t.getV r).getLsbD b = ((s.getV x).getLsbD b || (s.getV y).getLsbD b)
        else t.getV r = s.getV r) ∧
    (∃ t, exec (.andReg x y) s = .next t ∧ t = { s with pc := s.pc + 2, V := t.V } ∧
      ∀ r, if r = vf ∧ s.cfg.logicVf = .zero then t.getV r = 0
        else if r = x then ∀ b, b < 8 → (t.getV r).getLsbD b = ((s.getV x).getLsbD b && (s.getV y).getLsbD b)
        else t.getV r = s.getV r) ∧
    (∃ t, exec (.xorReg x y) s = .next t ∧ t = { s with pc := s.pc + 2, V := t.V } ∧
      ∀ r, if r = vf ∧ s.cfg.logicVf = .zero then t.getV r = 0
        else if r = x then ∀ b, b < 8 → (t.getV r).getLsbD b = ((s.getV x).getLsbD b ^^ (s.getV y).getLsbD b)
        else t.getV r = s.getV r)

/-- R148 to R150, R152: ADD, SUB and SUBN on operands read before any write. VF is 1 exactly when the sum is above 255, Vx is above Vy,
Vy is above Vx; the result modulo 256 is in Vx unless x is F, where the flag stays. -/
def Obligations.FlaggedArithmetic : Prop :=
  ∀ (s : State) (x y : Reg),
    (∃ t, exec (.addReg x y) s = .next t ∧ t = { s with pc := s.pc + 2, V := t.V } ∧
      (t.getV vf).toNat = (if (s.getV x).toNat + (s.getV y).toNat > 255 then 1 else 0) ∧
      (x ≠ vf → (t.getV x).toNat = ((s.getV x).toNat + (s.getV y).toNat) % 256) ∧
      ∀ r, r ≠ x → r ≠ vf → t.getV r = s.getV r) ∧
    (∃ t, exec (.sub x y) s = .next t ∧ t = { s with pc := s.pc + 2, V := t.V } ∧
      (t.getV vf).toNat = (if (s.getV x).toNat > (s.getV y).toNat then 1 else 0) ∧
      (x ≠ vf → (t.getV x).toNat = ((s.getV x).toNat + 256 - (s.getV y).toNat) % 256) ∧
      ∀ r, r ≠ x → r ≠ vf → t.getV r = s.getV r) ∧
    (∃ t, exec (.subn x y) s = .next t ∧ t = { s with pc := s.pc + 2, V := t.V } ∧
      (t.getV vf).toNat = (if (s.getV y).toNat > (s.getV x).toNat then 1 else 0) ∧
      (x ≠ vf → (t.getV x).toNat = ((s.getV y).toNat + 256 - (s.getV x).toNat) % 256) ∧
      ∀ r, r ≠ x → r ≠ vf → t.getV r = s.getV r)

/-- R151, R153, R148: SHR and SHL shift Vx by one, whatever y is; VF is the bit shifted out, written last. -/
def Obligations.Shifts : Prop :=
  ∀ (s : State) (x y : Reg),
    (∃ t, exec (.shr x y) s = .next t ∧ t = { s with pc := s.pc + 2, V := t.V } ∧
      (t.getV vf).toNat = (s.getV x).toNat % 2 ∧ (x ≠ vf → (t.getV x).toNat = (s.getV x).toNat / 2) ∧
      ∀ r, r ≠ x → r ≠ vf → t.getV r = s.getV r) ∧
    (∃ t, exec (.shl x y) s = .next t ∧ t = { s with pc := s.pc + 2, V := t.V } ∧
      (t.getV vf).toNat = (s.getV x).toNat / 128 ∧ (x ≠ vf → (t.getV x).toNat = (s.getV x).toNat * 2 % 256) ∧
      ∀ r, r ≠ x → r ≠ vf → t.getV r = s.getV r)

/-- R160: RND takes one byte from the random source and leaves it, masked by kk, in Vx: the next byte the source has supplied, or
else a free value (log 5), of which nothing is assumed. Bits of Vx where kk is 0 are 0. -/
def Obligations.RandomMasked : Prop :=
  ∀ (s : State) (x : Reg) (kk : Byte),
    ∃ t b, exec (.rnd x kk) s = .next t ∧ t.getV x = b &&& kk ∧
      (∀ j, kk.getLsbD j = false → (t.getV x).getLsbD j = false) ∧ (∀ r, r ≠ x → t.getV r = s.getV r) ∧
      (∀ c rest, s.randomInputs = c :: rest → b = c ∧ t.randomInputs = rest ∧ t.freeIndex = s.freeIndex) ∧
      (s.randomInputs = [] → t.randomInputs = [] ∧ t.freeIndex = s.freeIndex + 1) ∧
      t = { s with pc := s.pc + 2, V := t.V, randomInputs := t.randomInputs, freeIndex := t.freeIndex }

/-- R154, R22: an instruction that changes VF writes it as a flag, or names it as an ordinary destination register. -/
def Obligations.VfWriters : Prop :=
  ∀ (i : Instr) (s t : State), exec i s = .next t → t.getV vf ≠ s.getV vf →
    writesVfAsFlag s.cfg i = true ∨ namesVfAsDestination i = true

/-! ### Index register and memory -/

/-- R165 to R167: LD I, nnn; ADD I, Vx modulo 2^16; LD F, Vx, five times Vx, unmasked. No register V changes, nor anything but I and
pc. -/
def Obligations.IndexLoads : Prop :=
  ∀ (s : State) (x : Reg) (nnn : Addr),
    (∃ t, exec (.ldI nnn) s = .next t ∧ t.I.toNat = nnn.toNat ∧ t = { s with pc := s.pc + 2, I := t.I }) ∧
    (∃ t, exec (.addI x) s = .next t ∧ t.I.toNat = (s.I.toNat + (s.getV x).toNat) % 65536 ∧
      t = { s with pc := s.pc + 2, I := t.I }) ∧
    (∃ t, exec (.ldF x) s = .next t ∧ t.I.toNat = (s.getV x).toNat * 5 ∧ t = { s with pc := s.pc + 2, I := t.I })

/-- R168, R31: for Vx in 0..15, LD F leaves I at the first byte of that glyph: in a block whose font region reads as FONT, as
any Reset leaves it and as it stays under FONT_WRITE = ignore (`Safety.fontIntact`), the five bytes read at I are the glyph's
bytes of FONT, whatever program is loaded. -/
def Obligations.FontPointerReadsGlyph : Prop :=
  ∀ (s t : State) (x : Reg) (k : Nat), (∀ a, a < fontSize → s.readByte a = s.cfg.resetByte a) →
    (s.getV x).toNat < 16 → k < 5 → exec (.ldF x) s = .next t →
    ∃ h : (s.getV x).toNat * 5 + k < 80, t.readByte (indexAddr t k) = s.cfg.font[(s.getV x).toNat * 5 + k]

/-- R169, R66, R67: LD B, Vx stores hundreds, tens and units at I, I + 1, I + 2, each where the address is in memory and FONT_WRITE lets
it; every other byte keeps its value, and nothing else changes but pc. -/
def Obligations.BcdStore : Prop :=
  ∀ (s : State) (x : Reg), s.mem.wf s.cfg →
    ∃ t, exec (.ldB x) s = .next t ∧ t = { s with pc := s.pc + 2, mem := t.mem } ∧
      (∀ j, j < 3 → inMem (indexAddr s j) → writable s.cfg (indexAddr s j) →
        (t.readByte (indexAddr s j)).toNat =
          [(s.getV x).toNat / 100, (s.getV x).toNat / 10 % 10, (s.getV x).toNat % 10].getD j 0) ∧
      (∀ a, (∀ j, j < 3 → indexAddr s j = a → ¬ (inMem a ∧ writable s.cfg a)) → t.readByte a = s.readByte a)

/-- R170, R66, R67: LD [I], Vx stores V0 to Vx at I upward, each where the address is in memory and FONT_WRITE lets it; every other byte
keeps its value, and nothing else changes but pc: I is unchanged. -/
def Obligations.BlockStore : Prop :=
  ∀ (s : State) (x : Reg), s.mem.wf s.cfg →
    ∃ t, exec (.ldStore x) s = .next t ∧ t = { s with pc := s.pc + 2, mem := t.mem } ∧
      (∀ r : Reg, r.toNat ≤ x.toNat → inMem (indexAddr s r.toNat) → writable s.cfg (indexAddr s r.toNat) →
        t.readByte (indexAddr s r.toNat) = s.getV r) ∧
      (∀ a, (∀ r : Reg, r.toNat ≤ x.toNat → indexAddr s r.toNat = a → ¬ (inMem a ∧ writable s.cfg a)) →
        t.readByte a = s.readByte a)

/-- R171, R67: LD Vx, [I] loads V0 to Vx from I upward as far as the addresses are in memory; the other registers keep their values,
and nothing else changes but pc: I and memory are unchanged. -/
def Obligations.BlockLoad : Prop :=
  ∀ (s : State) (x : Reg),
    ∃ t, exec (.ldLoad x) s = .next t ∧ t = { s with pc := s.pc + 2, V := t.V } ∧
      ∀ r : Reg, t.getV r =
        if r.toNat ≤ x.toNat ∧ inMem (indexAddr s r.toNat) then s.readByte (indexAddr s r.toNat) else s.getV r

/-- R172: a block store, then anything that leaves memory, the configuration and I, then the block load of the same x, restores V0 to
Vx, when every address is in memory and none is in a font region that FONT_WRITE protects. -/
def Obligations.StoreThenLoadRestores : Prop :=
  ∀ (s t u w : State) (x : Reg), s.mem.wf s.cfg →
    (∀ r : Reg, r.toNat ≤ x.toNat → inMem (indexAddr s r.toNat) ∧ writable s.cfg (indexAddr s r.toNat)) →
    exec (.ldStore x) s = .next t → u.mem = t.mem → u.cfg = t.cfg → u.I = t.I →
    exec (.ldLoad x) u = .next w → ∀ r : Reg, r.toNat ≤ x.toNat → w.getV r = s.getV r

/-- R60, R66, R67, R173: only LD B and LD [I] write memory, at I upward, never out of range, and never where FONT_WRITE protects the
font; every instruction keeps the canonical form. -/
def Obligations.MemoryWriters : Prop :=
  ∀ (i : Instr) (s t : State), s.mem.wf s.cfg → exec i s = .next t →
    t.mem.wf s.cfg ∧
    ∀ a, t.readByte a ≠ s.readByte a →
      inMem a ∧ writable s.cfg a ∧ s.I.toNat ≤ a ∧
        ((∃ x, i = .ldB x ∧ a < s.I.toNat + 3) ∨ (∃ x : Reg, i = .ldStore x ∧ a ≤ s.I.toNat + x.toNat))

/-- R73, R258: a store is seen by the very next fetch: after a block store at I that covers pc + 2 and pc + 3, the fetch at the
new pc reads the two registers stored there, high byte first. -/
def Obligations.StoreSeenByNextFetch : Prop :=
  ∀ (s t : State) (x r q : Reg), s.mem.wf s.cfg → exec (.ldStore x) s = .next t →
    s.pc.toNat + 3 < memSize → r.toNat < x.toNat → q.toNat = r.toNat + 1 → indexAddr s r.toNat = s.pc.toNat + 2 →
    writable s.cfg (s.pc.toNat + 2) → writable s.cfg (s.pc.toNat + 3) →
    t.fetch = opcodeOfBytes (s.getV r) (s.getV q)

/-! ### Display -/

/-- R180: CLS clears every pixel, and changes nothing else but pc. -/
def Obligations.ClearDisplay : Prop :=
  ∀ s : State, ∃ t, exec .cls s = .next t ∧ t = { s with pc := s.pc + 2, FB := t.FB } ∧
    ∀ px py, px < 64 → py < 32 → pixel t.FB px py = false

/-- R182, R181: DRW flips exactly the pixels of the grid that a set bit of the sprite covers, with the origin wrapped, the rest clipped
and rows out of memory skipped; VF is 1 exactly when one of them was set; nothing else changes but pc. -/
def Obligations.DrawSpritePixels : Prop :=
  ∀ (s : State) (x y : Reg) (n : Nibble),
    ∃ t, exec (.drw x y n) s = .next t ∧ t = { s with pc := s.pc + 2, FB := t.FB, V := t.V } ∧
      (∀ px py, px < 64 → py < 32 → spriteCovers s x y n px py → pixel t.FB px py = !pixel s.FB px py) ∧
      (∀ px py, px < 64 → py < 32 → ¬ spriteCovers s x y n px py → pixel t.FB px py = pixel s.FB px py) ∧
      (t.getV vf = 1 ∨ t.getV vf = 0) ∧
      (t.getV vf = 1 ↔ ∃ px py, px < 64 ∧ py < 32 ∧ spriteCovers s x y n px py ∧ pixel s.FB px py = true) ∧
      ∀ r, r ≠ vf → t.getV r = s.getV r

/-- R184: DRW is its own inverse on FB: a second execution with the same Vx, Vy, n, I and memory leaves FB as before the first. -/
def Obligations.DrawTwiceRestores : Prop :=
  ∀ (s t u w : State) (x y : Reg) (n : Nibble), exec (.drw x y n) s = .next t →
    u.FB = t.FB → u.getV x = s.getV x → u.getV y = s.getV y → u.I = s.I → (∀ a, u.readByte a = s.readByte a) →
    exec (.drw x y n) u = .next w → w.FB = s.FB

/-- R183: only CLS and DRW write FB, and Reset clears it. -/
def Obligations.OnlyClsAndDrwWriteFB : Prop :=
  (∀ (i : Instr) (s t : State), exec i s = .next t → t.FB ≠ s.FB → i = .cls ∨ ∃ x y n, i = .drw x y n) ∧
  ∀ (s : State) (px py : Nat), px < 64 → py < 32 → pixel s.hostReset.FB px py = false

/-! ### Keys and timers -/

/-- R196, R197: SKP skips exactly when Vx is below 16 and that key of the snapshot is pressed; SKNP exactly when it is not so. Nothing
but pc changes. -/
def Obligations.KeySkips : Prop :=
  ∀ (s : State) (x : Reg),
    exec (.skp x) s =
      .next { s with pc := s.pc + if (s.getV x).toNat < 16 ∧ s.key.getLsbD (s.getV x).toNat = true then 4 else 2 } ∧
    exec (.sknp x) s =
      .next { s with pc := s.pc + if (s.getV x).toNat < 16 ∧ s.key.getLsbD (s.getV x).toNat = true then 2 else 4 }

/-- R199: LD Vx, K holds, changing nothing, while lastPressed is none; otherwise Vx gets the key's number and pc advances. -/
def Obligations.KeyWaitInstruction : Prop :=
  ∀ (s : State) (x : Reg),
    (s.lastPressed = none → exec (.ldVxK x) s = .next s) ∧
    (∀ k : Fin 16, s.lastPressed = some k → ∃ t, exec (.ldVxK x) s = .next t ∧ (t.getV x).toNat = k.val ∧
      (∀ r, r ≠ x → t.getV r = s.getV r) ∧ t = { s with pc := s.pc + 2, V := t.V })

/-- R202: at an Fx0A, any number of cycles with no key pressed leave pc and every register unchanged; the first cycle with a key
pressed stores the lowest key's number and advances pc by 2. -/
def Obligations.KeyWaitHoldsUntilKey : Prop :=
  ∀ (s : State) (x : Reg) (n : Nat) (k : Keys), s.faulted = false → s.pc.toNat ≤ 0xFFE →
    s.fetch = encode (.ldVxK x) → k ≠ 0 →
    ∃ t u, cyclesWith (List.replicate n 0) s = .next t ∧ t.pc = s.pc ∧ t.V = s.V ∧
      cycle k t = .next u ∧ u.pc = s.pc + 2 ∧ (u.getV x).toNat < 16 ∧ k.getLsbD (u.getV x).toNat = true ∧
      (∀ j, j < (u.getV x).toNat → k.getLsbD j = false) ∧ ∀ r, r ≠ x → u.getV r = s.getV r

/-- R198, R200, R201: LD Vx, DT; LD DT, Vx; LD ST, Vx, which leaves tone as it is. Nothing else changes but pc. -/
def Obligations.TimerInstructions : Prop :=
  ∀ (s : State) (x : Reg),
    (∃ t, exec (.ldVxDt x) s = .next t ∧ t.getV x = s.DT ∧ (∀ r, r ≠ x → t.getV r = s.getV r) ∧
      t = { s with pc := s.pc + 2, V := t.V }) ∧
    exec (.ldDtVx x) s = .next { s with pc := s.pc + 2, DT := s.getV x } ∧
    exec (.ldStVx x) s = .next { s with pc := s.pc + 2, ST := s.getV x }

/-- R225, R226: a tick decrements DT and ST, floored at 0, recomputes tone from the new ST, and signals drawFrame once (a count of
the model's, log 9); nothing else changes. -/
def Obligations.TickEffect : Prop :=
  ∀ s : State, s.tick.DT.toNat = s.DT.toNat - 1 ∧ s.tick.ST.toNat = s.ST.toNat - 1 ∧
    (s.tick.tone = true ↔ s.tick.ST.toNat > 0) ∧
    s.tick = { s with DT := s.tick.DT, ST := s.tick.ST, tone := s.tick.tone, drawFrames := s.drawFrames + 1 }

/-- R226, R33: after k + 1 ticks from ST = n with no instruction between, tone is on exactly while n is above k + 1, and both timers have
counted down by k + 1, never below 0. -/
def Obligations.ToneFollowsTicks : Prop :=
  ∀ (s : State) (k : Nat), (State.tick^[k + 1] s).ST.toNat = s.ST.toNat - (k + 1) ∧
    (State.tick^[k + 1] s).DT.toNat = s.DT.toNat - (k + 1) ∧
    ((State.tick^[k + 1] s).tone = true ↔ k + 1 < s.ST.toNat)

/-- R33, R36, R37: no instruction reads ST; only SKP and SKNP read the key snapshot; only LD Vx, K reads lastPressed: an instruction that
does not read an element does the same whatever it holds, and leaves it (LD ST, Vx, which writes ST, aside). -/
def Obligations.SnapshotAndTimerReaders : Prop :=
  ∀ (i : Instr) (s t : State), exec i s = .next t →
    (∀ v : Byte, (∀ x, i ≠ .ldStVx x) → exec i { s with ST := v } = .next { t with ST := v }) ∧
    (∀ v : Byte, ∀ x, i = .ldStVx x → exec i { s with ST := v } = .next t) ∧
    (∀ k : Keys, (∀ x, i ≠ .skp x ∧ i ≠ .sknp x) → exec i { s with key := k } = .next { t with key := k }) ∧
    (∀ l, (∀ x, i ≠ .ldVxK x) → exec i { s with lastPressed := l } = .next { t with lastPressed := l })

/-! ### The timing controller and the host -/

/-- R45, R220, R247: no instruction reads or writes tone, the controller's registers, the fault registers, the log or the host's side:
exchanging all of them exchanges just them in the result. -/
def Obligations.InstructionsIgnoreController : Prop :=
  ∀ (i : Instr) (s o t : State), exec i s = .next t →
    exec i (withControllerOf s o) = .next (withControllerOf t o) ∧ withControllerOf t s = t ∧ t.cfg = s.cfg

/-- R229, R237 to R239, R242: the host's actions that run no cycle. The pause toggle changes runState alone, set frequency instrFreq
alone; a Step while Running, a Step of no cycles and a frame while Paused change nothing; close closes the block (log 10). Real time
passing adds to accum while Running alone (the model's choice of an input for it, log 8). -/
def Obligations.HostActions : Prop :=
  ∀ (s : State) (n : Nat),
    applyAction .pauseToggle s =
      .next { s with runState := if s.runState = .running then .paused else .running } ∧
    applyAction (.setFrequency n) s = .next { s with instrFreq := n } ∧
    (s.runState = .running → applyAction (.step n) s = .next s) ∧
    (s.runState = .paused → applyAction .frame s = .next s) ∧
    (s.runState = .paused → s.phase = .boundary → applyAction (.step 0) s = .next s) ∧
    applyAction .close s = .next { s with closed := true } ∧
    (s.runState = .running → applyAction (.elapse n) s = .next { s with accum := s.accum + n }) ∧
    (s.runState = .paused → applyAction (.elapse n) s = .next s)

/-- R219, R236, D41: host actions fall only between frames and between Steps. Inside one, the pending actions, runState and
instrFreq are unchanged; at a boundary the oldest pending action is taken; with none pending a Paused block does nothing. -/
def Obligations.HostActionsAtBoundaries : Prop :=
  ∀ s t : State, step s = .next t →
    (s.phase ≠ .boundary → t.hostActions = s.hostActions ∧ t.runState = s.runState ∧ t.instrFreq = s.instrFreq) ∧
    (∀ a rest, s.phase = .boundary → s.hostActions = a :: rest →
      applyAction a { s with hostActions := rest } = .next t ∧ t.hostActions = rest) ∧
    (s.phase = .boundary → s.hostActions = [] → s.runState = .paused → t = s)

/-- R38, R39, R251: runState changes only by the pause toggle, instrFreq only by set frequency, and the configuration never. -/
def Obligations.ControllerRegisterWriters : Prop :=
  ∀ s t : State, step s = .next t →
    t.cfg = s.cfg ∧
    (t.runState ≠ s.runState → s.phase = .boundary ∧ ∃ rest, s.hostActions = .pauseToggle :: rest) ∧
    (t.instrFreq ≠ s.instrFreq →
      s.phase = .boundary ∧ ∃ rest, s.hostActions = .setFrequency t.instrFreq :: rest)

/-- R230, R231: the steps of the machine make up a frame. From a boundary while Running with nothing pending, as many steps as the
frame has cycles (one, for instrFreq = 0) come to exactly the state of the whole frame transition. The cut into steps, and that
the frame fires with nothing pending, are the model's choices: log 6, 7. -/
def Obligations.StepsMakeFrame : Prop :=
  ∀ s : State, s.closed = false → s.phase = .boundary → s.hostActions = [] → s.runState = .running →
    ∃ t, frame s = .next t ∧ t.accum = 0 ∧ core.run (max 1 s.instrFreq) s = .next t

/-- R232: the steps of the machine make up a Step request. From a boundary while Paused with Step(count) pending, as many steps as the
request has cycles (one, for count = 0) come to exactly the state of the whole Step transition. The cut into steps (log 6), with the
bookkeeping in its cycle's step (log 7), is the model's choice. -/
def Obligations.StepsMakeStepRequest : Prop :=
  ∀ (s : State) (count : Nat) (rest : List HostAction), s.closed = false → s.phase = .boundary →
    s.hostActions = .step count :: rest → s.runState = .paused →
    ∃ t, stepRequest count { s with hostActions := rest } = .next t ∧ core.run (max 1 count) s = .next t

/-- R232, R40: n stepped cycles move stepCount on by n modulo STEP_TICK_INTERVAL, and tick (one drawFrame each) once for every
STEP_TICK_INTERVAL of them, counted across requests. -/
def Obligations.SteppedCyclesTick : Prop :=
  ∀ (s : State) (n : Nat), s.cfg.wf → stepCountBounded s →
    ∃ t, runStepped n s = .next t ∧ t.stepCount = (s.stepCount + n) % s.cfg.stepTickInterval ∧
      t.drawFrames = s.drawFrames + (s.stepCount + n) / s.cfg.stepTickInterval

/-- R33, R225, R34: a cycle changes DT only by LD DT, Vx, ST only by LD ST, Vx, and tone never. -/
def Obligations.CycleTimerWriters : Prop :=
  ∀ (s t : State) (k : Keys), cycle k s = .next t →
    t.tone = s.tone ∧
    (t.DT ≠ s.DT → ∃ x, decode s.cfg.strict59 s.fetch = .ok (.ldDtVx x) ∧ t.DT = s.getV x) ∧
    (t.ST ≠ s.ST → ∃ x, decode s.cfg.strict59 s.fetch = .ok (.ldStVx x) ∧ t.ST = s.getV x)

/-! ### Invariants -/

/-- R26, R29, R37, R40, R42, R44, R66, R105, R210, R229: every step keeps the invariant of the machine: SP in [0, 16], live return addresses
fetched, pc at most 0x10FE, memory canonical, the font intact under FONT_WRITE = ignore, the log bounded and without LoadError,
stepCount bounded, lastPressed the snapshot's lowest key, the fault registers consistent, and frames only while Running. -/
def Obligations.StepKeepsInvariant : Prop :=
  ∀ s t : State, Inv s → step s = .next t → Inv t

/-- The power-on state meets the invariant under every configuration that R9 allows, the default among them. -/
def Obligations.PowerOnMeetsInvariant : Prop :=
  (∀ c : Config, c.wf → Inv (State.powerOn c)) ∧ Inv State.reset

/-- R26: pc never wraps: from a state that meets the invariant, with a fetch in range, no instruction's arithmetic on pc passes
2^16: pc + 2 and pc + 4 are exact, and whatever the instruction, pc stays at most 0x10FE. -/
def Obligations.PcNeverWraps : Prop :=
  ∀ (i : Instr) (s t : State), Inv s → s.pc.toNat ≤ 0xFFE → exec i s = .next t →
    t.pc.toNat ≤ 0x10FE ∧ (s.pc + 2).toNat = s.pc.toNat + 2 ∧ (s.pc + 4).toNat = s.pc.toNat + 4
end

