-- ==== Sys2Proof/Laws/State.lean ====
section
/-! SUPPORT. The fields of every update of the state, one lemma per field and update, true by rfl. -/

namespace Sys2Proof.Laws.State

open Sys2Proof.Machine

variable (s : State)

/-! ### setV -/

@[simp] theorem setV_cfg (x : Reg) (v : Byte) : (s.setV x v).cfg = s.cfg := rfl
@[simp] theorem setV_mem (x : Reg) (v : Byte) : (s.setV x v).mem = s.mem := rfl
@[simp] theorem setV_V (x : Reg) (v : Byte) : (s.setV x v).V = s.V.set x.toNat v x.isLt := rfl
@[simp] theorem setV_I (x : Reg) (v : Byte) : (s.setV x v).I = s.I := rfl
@[simp] theorem setV_pc (x : Reg) (v : Byte) : (s.setV x v).pc = s.pc := rfl
@[simp] theorem setV_stack (x : Reg) (v : Byte) : (s.setV x v).stack = s.stack := rfl
@[simp] theorem setV_SP (x : Reg) (v : Byte) : (s.setV x v).SP = s.SP := rfl
@[simp] theorem setV_FB (x : Reg) (v : Byte) : (s.setV x v).FB = s.FB := rfl
@[simp] theorem setV_DT (x : Reg) (v : Byte) : (s.setV x v).DT = s.DT := rfl
@[simp] theorem setV_ST (x : Reg) (v : Byte) : (s.setV x v).ST = s.ST := rfl
@[simp] theorem setV_tone (x : Reg) (v : Byte) : (s.setV x v).tone = s.tone := rfl
@[simp] theorem setV_key (x : Reg) (v : Byte) : (s.setV x v).key = s.key := rfl
@[simp] theorem setV_lastPressed (x : Reg) (v : Byte) : (s.setV x v).lastPressed = s.lastPressed := rfl
@[simp] theorem setV_runState (x : Reg) (v : Byte) : (s.setV x v).runState = s.runState := rfl
@[simp] theorem setV_instrFreq (x : Reg) (v : Byte) : (s.setV x v).instrFreq = s.instrFreq := rfl
@[simp] theorem setV_stepCount (x : Reg) (v : Byte) : (s.setV x v).stepCount = s.stepCount := rfl
@[simp] theorem setV_accum (x : Reg) (v : Byte) : (s.setV x v).accum = s.accum := rfl
@[simp] theorem setV_faulted (x : Reg) (v : Byte) : (s.setV x v).faulted = s.faulted := rfl
@[simp] theorem setV_faultPc (x : Reg) (v : Byte) : (s.setV x v).faultPc = s.faultPc := rfl
@[simp] theorem setV_log (x : Reg) (v : Byte) : (s.setV x v).log = s.log := rfl
@[simp] theorem setV_event (x : Reg) (v : Byte) : (s.setV x v).event = s.event := rfl
@[simp] theorem setV_hostResult (x : Reg) (v : Byte) : (s.setV x v).hostResult = s.hostResult := rfl
@[simp] theorem setV_drawFrames (x : Reg) (v : Byte) : (s.setV x v).drawFrames = s.drawFrames := rfl
@[simp] theorem setV_phase (x : Reg) (v : Byte) : (s.setV x v).phase = s.phase := rfl
@[simp] theorem setV_hostActions (x : Reg) (v : Byte) : (s.setV x v).hostActions = s.hostActions := rfl
@[simp] theorem setV_closed (x : Reg) (v : Byte) : (s.setV x v).closed = s.closed := rfl
@[simp] theorem setV_keyInputs (x : Reg) (v : Byte) : (s.setV x v).keyInputs = s.keyInputs := rfl
@[simp] theorem setV_randomInputs (x : Reg) (v : Byte) : (s.setV x v).randomInputs = s.randomInputs := rfl
@[simp] theorem setV_freeIndex (x : Reg) (v : Byte) : (s.setV x v).freeIndex = s.freeIndex := rfl

/-! ### setI -/

@[simp] theorem setI_cfg (v : Word) : (s.setI v).cfg = s.cfg := rfl
@[simp] theorem setI_mem (v : Word) : (s.setI v).mem = s.mem := rfl
@[simp] theorem setI_V (v : Word) : (s.setI v).V = s.V := rfl
@[simp] theorem setI_I (v : Word) : (s.setI v).I = v := rfl
@[simp] theorem setI_pc (v : Word) : (s.setI v).pc = s.pc := rfl
@[simp] theorem setI_stack (v : Word) : (s.setI v).stack = s.stack := rfl
@[simp] theorem setI_SP (v : Word) : (s.setI v).SP = s.SP := rfl
@[simp] theorem setI_FB (v : Word) : (s.setI v).FB = s.FB := rfl
@[simp] theorem setI_DT (v : Word) : (s.setI v).DT = s.DT := rfl
@[simp] theorem setI_ST (v : Word) : (s.setI v).ST = s.ST := rfl
@[simp] theorem setI_tone (v : Word) : (s.setI v).tone = s.tone := rfl
@[simp] theorem setI_key (v : Word) : (s.setI v).key = s.key := rfl
@[simp] theorem setI_lastPressed (v : Word) : (s.setI v).lastPressed = s.lastPressed := rfl
@[simp] theorem setI_runState (v : Word) : (s.setI v).runState = s.runState := rfl
@[simp] theorem setI_instrFreq (v : Word) : (s.setI v).instrFreq = s.instrFreq := rfl
@[simp] theorem setI_stepCount (v : Word) : (s.setI v).stepCount = s.stepCount := rfl
@[simp] theorem setI_accum (v : Word) : (s.setI v).accum = s.accum := rfl
@[simp] theorem setI_faulted (v : Word) : (s.setI v).faulted = s.faulted := rfl
@[simp] theorem setI_faultPc (v : Word) : (s.setI v).faultPc = s.faultPc := rfl
@[simp] theorem setI_log (v : Word) : (s.setI v).log = s.log := rfl
@[simp] theorem setI_event (v : Word) : (s.setI v).event = s.event := rfl
@[simp] theorem setI_hostResult (v : Word) : (s.setI v).hostResult = s.hostResult := rfl
@[simp] theorem setI_drawFrames (v : Word) : (s.setI v).drawFrames = s.drawFrames := rfl
@[simp] theorem setI_phase (v : Word) : (s.setI v).phase = s.phase := rfl
@[simp] theorem setI_hostActions (v : Word) : (s.setI v).hostActions = s.hostActions := rfl
@[simp] theorem setI_closed (v : Word) : (s.setI v).closed = s.closed := rfl
@[simp] theorem setI_keyInputs (v : Word) : (s.setI v).keyInputs = s.keyInputs := rfl
@[simp] theorem setI_randomInputs (v : Word) : (s.setI v).randomInputs = s.randomInputs := rfl
@[simp] theorem setI_freeIndex (v : Word) : (s.setI v).freeIndex = s.freeIndex := rfl

/-! ### setPc -/

@[simp] theorem setPc_cfg (v : Word) : (s.setPc v).cfg = s.cfg := rfl
@[simp] theorem setPc_mem (v : Word) : (s.setPc v).mem = s.mem := rfl
@[simp] theorem setPc_V (v : Word) : (s.setPc v).V = s.V := rfl
@[simp] theorem setPc_I (v : Word) : (s.setPc v).I = s.I := rfl
@[simp] theorem setPc_pc (v : Word) : (s.setPc v).pc = v := rfl
@[simp] theorem setPc_stack (v : Word) : (s.setPc v).stack = s.stack := rfl
@[simp] theorem setPc_SP (v : Word) : (s.setPc v).SP = s.SP := rfl
@[simp] theorem setPc_FB (v : Word) : (s.setPc v).FB = s.FB := rfl
@[simp] theorem setPc_DT (v : Word) : (s.setPc v).DT = s.DT := rfl
@[simp] theorem setPc_ST (v : Word) : (s.setPc v).ST = s.ST := rfl
@[simp] theorem setPc_tone (v : Word) : (s.setPc v).tone = s.tone := rfl
@[simp] theorem setPc_key (v : Word) : (s.setPc v).key = s.key := rfl
@[simp] theorem setPc_lastPressed (v : Word) : (s.setPc v).lastPressed = s.lastPressed := rfl
@[simp] theorem setPc_runState (v : Word) : (s.setPc v).runState = s.runState := rfl
@[simp] theorem setPc_instrFreq (v : Word) : (s.setPc v).instrFreq = s.instrFreq := rfl
@[simp] theorem setPc_stepCount (v : Word) : (s.setPc v).stepCount = s.stepCount := rfl
@[simp] theorem setPc_accum (v : Word) : (s.setPc v).accum = s.accum := rfl
@[simp] theorem setPc_faulted (v : Word) : (s.setPc v).faulted = s.faulted := rfl
@[simp] theorem setPc_faultPc (v : Word) : (s.setPc v).faultPc = s.faultPc := rfl
@[simp] theorem setPc_log (v : Word) : (s.setPc v).log = s.log := rfl
@[simp] theorem setPc_event (v : Word) : (s.setPc v).event = s.event := rfl
@[simp] theorem setPc_hostResult (v : Word) : (s.setPc v).hostResult = s.hostResult := rfl
@[simp] theorem setPc_drawFrames (v : Word) : (s.setPc v).drawFrames = s.drawFrames := rfl
@[simp] theorem setPc_phase (v : Word) : (s.setPc v).phase = s.phase := rfl
@[simp] theorem setPc_hostActions (v : Word) : (s.setPc v).hostActions = s.hostActions := rfl
@[simp] theorem setPc_closed (v : Word) : (s.setPc v).closed = s.closed := rfl
@[simp] theorem setPc_keyInputs (v : Word) : (s.setPc v).keyInputs = s.keyInputs := rfl
@[simp] theorem setPc_randomInputs (v : Word) : (s.setPc v).randomInputs = s.randomInputs := rfl
@[simp] theorem setPc_freeIndex (v : Word) : (s.setPc v).freeIndex = s.freeIndex := rfl

/-! ### advance -/

@[simp] theorem advance_cfg : (s.advance).cfg = s.cfg := rfl
@[simp] theorem advance_mem : (s.advance).mem = s.mem := rfl
@[simp] theorem advance_V : (s.advance).V = s.V := rfl
@[simp] theorem advance_I : (s.advance).I = s.I := rfl
@[simp] theorem advance_pc : (s.advance).pc = s.pc + 2 := rfl
@[simp] theorem advance_stack : (s.advance).stack = s.stack := rfl
@[simp] theorem advance_SP : (s.advance).SP = s.SP := rfl
@[simp] theorem advance_FB : (s.advance).FB = s.FB := rfl
@[simp] theorem advance_DT : (s.advance).DT = s.DT := rfl
@[simp] theorem advance_ST : (s.advance).ST = s.ST := rfl
@[simp] theorem advance_tone : (s.advance).tone = s.tone := rfl
@[simp] theorem advance_key : (s.advance).key = s.key := rfl
@[simp] theorem advance_lastPressed : (s.advance).lastPressed = s.lastPressed := rfl
@[simp] theorem advance_runState : (s.advance).runState = s.runState := rfl
@[simp] theorem advance_instrFreq : (s.advance).instrFreq = s.instrFreq := rfl
@[simp] theorem advance_stepCount : (s.advance).stepCount = s.stepCount := rfl
@[simp] theorem advance_accum : (s.advance).accum = s.accum := rfl
@[simp] theorem advance_faulted : (s.advance).faulted = s.faulted := rfl
@[simp] theorem advance_faultPc : (s.advance).faultPc = s.faultPc := rfl
@[simp] theorem advance_log : (s.advance).log = s.log := rfl
@[simp] theorem advance_event : (s.advance).event = s.event := rfl
@[simp] theorem advance_hostResult : (s.advance).hostResult = s.hostResult := rfl
@[simp] theorem advance_drawFrames : (s.advance).drawFrames = s.drawFrames := rfl
@[simp] theorem advance_phase : (s.advance).phase = s.phase := rfl
@[simp] theorem advance_hostActions : (s.advance).hostActions = s.hostActions := rfl
@[simp] theorem advance_closed : (s.advance).closed = s.closed := rfl
@[simp] theorem advance_keyInputs : (s.advance).keyInputs = s.keyInputs := rfl
@[simp] theorem advance_randomInputs : (s.advance).randomInputs = s.randomInputs := rfl
@[simp] theorem advance_freeIndex : (s.advance).freeIndex = s.freeIndex := rfl

/-! ### skipIf -/

@[simp] theorem skipIf_cfg (c : Bool) : (s.skipIf c).cfg = s.cfg := rfl
@[simp] theorem skipIf_mem (c : Bool) : (s.skipIf c).mem = s.mem := rfl
@[simp] theorem skipIf_V (c : Bool) : (s.skipIf c).V = s.V := rfl
@[simp] theorem skipIf_I (c : Bool) : (s.skipIf c).I = s.I := rfl
@[simp] theorem skipIf_pc (c : Bool) : (s.skipIf c).pc = s.pc + if c then 4 else 2 := rfl
@[simp] theorem skipIf_stack (c : Bool) : (s.skipIf c).stack = s.stack := rfl
@[simp] theorem skipIf_SP (c : Bool) : (s.skipIf c).SP = s.SP := rfl
@[simp] theorem skipIf_FB (c : Bool) : (s.skipIf c).FB = s.FB := rfl
@[simp] theorem skipIf_DT (c : Bool) : (s.skipIf c).DT = s.DT := rfl
@[simp] theorem skipIf_ST (c : Bool) : (s.skipIf c).ST = s.ST := rfl
@[simp] theorem skipIf_tone (c : Bool) : (s.skipIf c).tone = s.tone := rfl
@[simp] theorem skipIf_key (c : Bool) : (s.skipIf c).key = s.key := rfl
@[simp] theorem skipIf_lastPressed (c : Bool) : (s.skipIf c).lastPressed = s.lastPressed := rfl
@[simp] theorem skipIf_runState (c : Bool) : (s.skipIf c).runState = s.runState := rfl
@[simp] theorem skipIf_instrFreq (c : Bool) : (s.skipIf c).instrFreq = s.instrFreq := rfl
@[simp] theorem skipIf_stepCount (c : Bool) : (s.skipIf c).stepCount = s.stepCount := rfl
@[simp] theorem skipIf_accum (c : Bool) : (s.skipIf c).accum = s.accum := rfl
@[simp] theorem skipIf_faulted (c : Bool) : (s.skipIf c).faulted = s.faulted := rfl
@[simp] theorem skipIf_faultPc (c : Bool) : (s.skipIf c).faultPc = s.faultPc := rfl
@[simp] theorem skipIf_log (c : Bool) : (s.skipIf c).log = s.log := rfl
@[simp] theorem skipIf_event (c : Bool) : (s.skipIf c).event = s.event := rfl
@[simp] theorem skipIf_hostResult (c : Bool) : (s.skipIf c).hostResult = s.hostResult := rfl
@[simp] theorem skipIf_drawFrames (c : Bool) : (s.skipIf c).drawFrames = s.drawFrames := rfl
@[simp] theorem skipIf_phase (c : Bool) : (s.skipIf c).phase = s.phase := rfl
@[simp] theorem skipIf_hostActions (c : Bool) : (s.skipIf c).hostActions = s.hostActions := rfl
@[simp] theorem skipIf_closed (c : Bool) : (s.skipIf c).closed = s.closed := rfl
@[simp] theorem skipIf_keyInputs (c : Bool) : (s.skipIf c).keyInputs = s.keyInputs := rfl
@[simp] theorem skipIf_randomInputs (c : Bool) : (s.skipIf c).randomInputs = s.randomInputs := rfl
@[simp] theorem skipIf_freeIndex (c : Bool) : (s.skipIf c).freeIndex = s.freeIndex := rfl

/-! ### push -/

@[simp] theorem push_cfg (v : Word) : (s.push v).cfg = s.cfg := rfl
@[simp] theorem push_mem (v : Word) : (s.push v).mem = s.mem := rfl
@[simp] theorem push_V (v : Word) : (s.push v).V = s.V := rfl
@[simp] theorem push_I (v : Word) : (s.push v).I = s.I := rfl
@[simp] theorem push_pc (v : Word) : (s.push v).pc = s.pc := rfl
@[simp] theorem push_stack (v : Word) : (s.push v).stack = s.stack.setIfInBounds s.SP v := rfl
@[simp] theorem push_SP (v : Word) : (s.push v).SP = s.SP + 1 := rfl
@[simp] theorem push_FB (v : Word) : (s.push v).FB = s.FB := rfl
@[simp] theorem push_DT (v : Word) : (s.push v).DT = s.DT := rfl
@[simp] theorem push_ST (v : Word) : (s.push v).ST = s.ST := rfl
@[simp] theorem push_tone (v : Word) : (s.push v).tone = s.tone := rfl
@[simp] theorem push_key (v : Word) : (s.push v).key = s.key := rfl
@[simp] theorem push_lastPressed (v : Word) : (s.push v).lastPressed = s.lastPressed := rfl
@[simp] theorem push_runState (v : Word) : (s.push v).runState = s.runState := rfl
@[simp] theorem push_instrFreq (v : Word) : (s.push v).instrFreq = s.instrFreq := rfl
@[simp] theorem push_stepCount (v : Word) : (s.push v).stepCount = s.stepCount := rfl
@[simp] theorem push_accum (v : Word) : (s.push v).accum = s.accum := rfl
@[simp] theorem push_faulted (v : Word) : (s.push v).faulted = s.faulted := rfl
@[simp] theorem push_faultPc (v : Word) : (s.push v).faultPc = s.faultPc := rfl
@[simp] theorem push_log (v : Word) : (s.push v).log = s.log := rfl
@[simp] theorem push_event (v : Word) : (s.push v).event = s.event := rfl
@[simp] theorem push_hostResult (v : Word) : (s.push v).hostResult = s.hostResult := rfl
@[simp] theorem push_drawFrames (v : Word) : (s.push v).drawFrames = s.drawFrames := rfl
@[simp] theorem push_phase (v : Word) : (s.push v).phase = s.phase := rfl
@[simp] theorem push_hostActions (v : Word) : (s.push v).hostActions = s.hostActions := rfl
@[simp] theorem push_closed (v : Word) : (s.push v).closed = s.closed := rfl
@[simp] theorem push_keyInputs (v : Word) : (s.push v).keyInputs = s.keyInputs := rfl
@[simp] theorem push_randomInputs (v : Word) : (s.push v).randomInputs = s.randomInputs := rfl
@[simp] theorem push_freeIndex (v : Word) : (s.push v).freeIndex = s.freeIndex := rfl

/-! ### pop -/

@[simp] theorem pop_cfg : (s.pop).cfg = s.cfg := rfl
@[simp] theorem pop_mem : (s.pop).mem = s.mem := rfl
@[simp] theorem pop_V : (s.pop).V = s.V := rfl
@[simp] theorem pop_I : (s.pop).I = s.I := rfl
@[simp] theorem pop_pc : (s.pop).pc = s.pc := rfl
@[simp] theorem pop_stack : (s.pop).stack = s.stack := rfl
@[simp] theorem pop_SP : (s.pop).SP = s.SP - 1 := rfl
@[simp] theorem pop_FB : (s.pop).FB = s.FB := rfl
@[simp] theorem pop_DT : (s.pop).DT = s.DT := rfl
@[simp] theorem pop_ST : (s.pop).ST = s.ST := rfl
@[simp] theorem pop_tone : (s.pop).tone = s.tone := rfl
@[simp] theorem pop_key : (s.pop).key = s.key := rfl
@[simp] theorem pop_lastPressed : (s.pop).lastPressed = s.lastPressed := rfl
@[simp] theorem pop_runState : (s.pop).runState = s.runState := rfl
@[simp] theorem pop_instrFreq : (s.pop).instrFreq = s.instrFreq := rfl
@[simp] theorem pop_stepCount : (s.pop).stepCount = s.stepCount := rfl
@[simp] theorem pop_accum : (s.pop).accum = s.accum := rfl
@[simp] theorem pop_faulted : (s.pop).faulted = s.faulted := rfl
@[simp] theorem pop_faultPc : (s.pop).faultPc = s.faultPc := rfl
@[simp] theorem pop_log : (s.pop).log = s.log := rfl
@[simp] theorem pop_event : (s.pop).event = s.event := rfl
@[simp] theorem pop_hostResult : (s.pop).hostResult = s.hostResult := rfl
@[simp] theorem pop_drawFrames : (s.pop).drawFrames = s.drawFrames := rfl
@[simp] theorem pop_phase : (s.pop).phase = s.phase := rfl
@[simp] theorem pop_hostActions : (s.pop).hostActions = s.hostActions := rfl
@[simp] theorem pop_closed : (s.pop).closed = s.closed := rfl
@[simp] theorem pop_keyInputs : (s.pop).keyInputs = s.keyInputs := rfl
@[simp] theorem pop_randomInputs : (s.pop).randomInputs = s.randomInputs := rfl
@[simp] theorem pop_freeIndex : (s.pop).freeIndex = s.freeIndex := rfl

/-! ### report -/

@[simp] theorem report_cfg (e : Condition) : (s.report e).cfg = s.cfg := rfl
@[simp] theorem report_mem (e : Condition) : (s.report e).mem = s.mem := rfl
@[simp] theorem report_V (e : Condition) : (s.report e).V = s.V := rfl
@[simp] theorem report_I (e : Condition) : (s.report e).I = s.I := rfl
@[simp] theorem report_pc (e : Condition) : (s.report e).pc = s.pc := rfl
@[simp] theorem report_stack (e : Condition) : (s.report e).stack = s.stack := rfl
@[simp] theorem report_SP (e : Condition) : (s.report e).SP = s.SP := rfl
@[simp] theorem report_FB (e : Condition) : (s.report e).FB = s.FB := rfl
@[simp] theorem report_DT (e : Condition) : (s.report e).DT = s.DT := rfl
@[simp] theorem report_ST (e : Condition) : (s.report e).ST = s.ST := rfl
@[simp] theorem report_tone (e : Condition) : (s.report e).tone = s.tone := rfl
@[simp] theorem report_key (e : Condition) : (s.report e).key = s.key := rfl
@[simp] theorem report_lastPressed (e : Condition) : (s.report e).lastPressed = s.lastPressed := rfl
@[simp] theorem report_runState (e : Condition) : (s.report e).runState = s.runState := rfl
@[simp] theorem report_instrFreq (e : Condition) : (s.report e).instrFreq = s.instrFreq := rfl
@[simp] theorem report_stepCount (e : Condition) : (s.report e).stepCount = s.stepCount := rfl
@[simp] theorem report_accum (e : Condition) : (s.report e).accum = s.accum := rfl
@[simp] theorem report_faulted (e : Condition) : (s.report e).faulted = s.faulted := rfl
@[simp] theorem report_faultPc (e : Condition) : (s.report e).faultPc = s.faultPc := rfl
@[simp] theorem report_log (e : Condition) : (s.report e).log = s.log := rfl
@[simp] theorem report_event (e : Condition) : (s.report e).event = e := rfl
@[simp] theorem report_hostResult (e : Condition) : (s.report e).hostResult = s.hostResult := rfl
@[simp] theorem report_drawFrames (e : Condition) : (s.report e).drawFrames = s.drawFrames := rfl
@[simp] theorem report_phase (e : Condition) : (s.report e).phase = s.phase := rfl
@[simp] theorem report_hostActions (e : Condition) : (s.report e).hostActions = s.hostActions := rfl
@[simp] theorem report_closed (e : Condition) : (s.report e).closed = s.closed := rfl
@[simp] theorem report_keyInputs (e : Condition) : (s.report e).keyInputs = s.keyInputs := rfl
@[simp] theorem report_randomInputs (e : Condition) : (s.report e).randomInputs = s.randomInputs := rfl
@[simp] theorem report_freeIndex (e : Condition) : (s.report e).freeIndex = s.freeIndex := rfl

/-! ### raiseFetchFault -/

@[simp] theorem raiseFetchFault_cfg : (s.raiseFetchFault).cfg = s.cfg := rfl
@[simp] theorem raiseFetchFault_mem : (s.raiseFetchFault).mem = s.mem := rfl
@[simp] theorem raiseFetchFault_V : (s.raiseFetchFault).V = s.V := rfl
@[simp] theorem raiseFetchFault_I : (s.raiseFetchFault).I = s.I := rfl
@[simp] theorem raiseFetchFault_pc : (s.raiseFetchFault).pc = s.pc := rfl
@[simp] theorem raiseFetchFault_stack : (s.raiseFetchFault).stack = s.stack := rfl
@[simp] theorem raiseFetchFault_SP : (s.raiseFetchFault).SP = s.SP := rfl
@[simp] theorem raiseFetchFault_FB : (s.raiseFetchFault).FB = s.FB := rfl
@[simp] theorem raiseFetchFault_DT : (s.raiseFetchFault).DT = s.DT := rfl
@[simp] theorem raiseFetchFault_ST : (s.raiseFetchFault).ST = s.ST := rfl
@[simp] theorem raiseFetchFault_tone : (s.raiseFetchFault).tone = s.tone := rfl
@[simp] theorem raiseFetchFault_key : (s.raiseFetchFault).key = s.key := rfl
@[simp] theorem raiseFetchFault_lastPressed : (s.raiseFetchFault).lastPressed = s.lastPressed := rfl
@[simp] theorem raiseFetchFault_runState : (s.raiseFetchFault).runState = s.runState := rfl
@[simp] theorem raiseFetchFault_instrFreq : (s.raiseFetchFault).instrFreq = s.instrFreq := rfl
@[simp] theorem raiseFetchFault_stepCount : (s.raiseFetchFault).stepCount = s.stepCount := rfl
@[simp] theorem raiseFetchFault_accum : (s.raiseFetchFault).accum = s.accum := rfl
@[simp] theorem raiseFetchFault_faulted : (s.raiseFetchFault).faulted = true := rfl
@[simp] theorem raiseFetchFault_faultPc : (s.raiseFetchFault).faultPc = s.pc := rfl
@[simp] theorem raiseFetchFault_log : (s.raiseFetchFault).log = s.log := rfl
@[simp] theorem raiseFetchFault_event : (s.raiseFetchFault).event = .fetchFault := rfl
@[simp] theorem raiseFetchFault_hostResult : (s.raiseFetchFault).hostResult = s.hostResult := rfl
@[simp] theorem raiseFetchFault_drawFrames : (s.raiseFetchFault).drawFrames = s.drawFrames := rfl
@[simp] theorem raiseFetchFault_phase : (s.raiseFetchFault).phase = s.phase := rfl
@[simp] theorem raiseFetchFault_hostActions : (s.raiseFetchFault).hostActions = s.hostActions := rfl
@[simp] theorem raiseFetchFault_closed : (s.raiseFetchFault).closed = s.closed := rfl
@[simp] theorem raiseFetchFault_keyInputs : (s.raiseFetchFault).keyInputs = s.keyInputs := rfl
@[simp] theorem raiseFetchFault_randomInputs : (s.raiseFetchFault).randomInputs = s.randomInputs := rfl
@[simp] theorem raiseFetchFault_freeIndex : (s.raiseFetchFault).freeIndex = s.freeIndex := rfl

/-! ### appendRecord -/

@[simp] theorem appendRecord_cfg (p : Word) (op : Option Word) (k : RecordKind) : (s.appendRecord p op k).cfg = s.cfg := rfl
@[simp] theorem appendRecord_mem (p : Word) (op : Option Word) (k : RecordKind) : (s.appendRecord p op k).mem = s.mem := rfl
@[simp] theorem appendRecord_V (p : Word) (op : Option Word) (k : RecordKind) : (s.appendRecord p op k).V = s.V := rfl
@[simp] theorem appendRecord_I (p : Word) (op : Option Word) (k : RecordKind) : (s.appendRecord p op k).I = s.I := rfl
@[simp] theorem appendRecord_pc (p : Word) (op : Option Word) (k : RecordKind) : (s.appendRecord p op k).pc = s.pc := rfl
@[simp] theorem appendRecord_stack (p : Word) (op : Option Word) (k : RecordKind) : (s.appendRecord p op k).stack = s.stack := rfl
@[simp] theorem appendRecord_SP (p : Word) (op : Option Word) (k : RecordKind) : (s.appendRecord p op k).SP = s.SP := rfl
@[simp] theorem appendRecord_FB (p : Word) (op : Option Word) (k : RecordKind) : (s.appendRecord p op k).FB = s.FB := rfl
@[simp] theorem appendRecord_DT (p : Word) (op : Option Word) (k : RecordKind) : (s.appendRecord p op k).DT = s.DT := rfl
@[simp] theorem appendRecord_ST (p : Word) (op : Option Word) (k : RecordKind) : (s.appendRecord p op k).ST = s.ST := rfl
@[simp] theorem appendRecord_tone (p : Word) (op : Option Word) (k : RecordKind) : (s.appendRecord p op k).tone = s.tone := rfl
@[simp] theorem appendRecord_key (p : Word) (op : Option Word) (k : RecordKind) : (s.appendRecord p op k).key = s.key := rfl
@[simp] theorem appendRecord_lastPressed (p : Word) (op : Option Word) (k : RecordKind) : (s.appendRecord p op k).lastPressed = s.lastPressed := rfl
@[simp] theorem appendRecord_runState (p : Word) (op : Option Word) (k : RecordKind) : (s.appendRecord p op k).runState = s.runState := rfl
@[simp] theorem appendRecord_instrFreq (p : Word) (op : Option Word) (k : RecordKind) : (s.appendRecord p op k).instrFreq = s.instrFreq := rfl
@[simp] theorem appendRecord_stepCount (p : Word) (op : Option Word) (k : RecordKind) : (s.appendRecord p op k).stepCount = s.stepCount := rfl
@[simp] theorem appendRecord_accum (p : Word) (op : Option Word) (k : RecordKind) : (s.appendRecord p op k).accum = s.accum := rfl
@[simp] theorem appendRecord_faulted (p : Word) (op : Option Word) (k : RecordKind) : (s.appendRecord p op k).faulted = s.faulted := rfl
@[simp] theorem appendRecord_faultPc (p : Word) (op : Option Word) (k : RecordKind) : (s.appendRecord p op k).faultPc = s.faultPc := rfl
@[simp] theorem appendRecord_log (p : Word) (op : Option Word) (k : RecordKind) : (s.appendRecord p op k).log = ringAppend s.cfg.logCapacity s.log ⟨p, op, k, s.event⟩ := rfl
@[simp] theorem appendRecord_event (p : Word) (op : Option Word) (k : RecordKind) : (s.appendRecord p op k).event = s.event := rfl
@[simp] theorem appendRecord_hostResult (p : Word) (op : Option Word) (k : RecordKind) : (s.appendRecord p op k).hostResult = s.hostResult := rfl
@[simp] theorem appendRecord_drawFrames (p : Word) (op : Option Word) (k : RecordKind) : (s.appendRecord p op k).drawFrames = s.drawFrames := rfl
@[simp] theorem appendRecord_phase (p : Word) (op : Option Word) (k : RecordKind) : (s.appendRecord p op k).phase = s.phase := rfl
@[simp] theorem appendRecord_hostActions (p : Word) (op : Option Word) (k : RecordKind) : (s.appendRecord p op k).hostActions = s.hostActions := rfl
@[simp] theorem appendRecord_closed (p : Word) (op : Option Word) (k : RecordKind) : (s.appendRecord p op k).closed = s.closed := rfl
@[simp] theorem appendRecord_keyInputs (p : Word) (op : Option Word) (k : RecordKind) : (s.appendRecord p op k).keyInputs = s.keyInputs := rfl
@[simp] theorem appendRecord_randomInputs (p : Word) (op : Option Word) (k : RecordKind) : (s.appendRecord p op k).randomInputs = s.randomInputs := rfl
@[simp] theorem appendRecord_freeIndex (p : Word) (op : Option Word) (k : RecordKind) : (s.appendRecord p op k).freeIndex = s.freeIndex := rfl

/-! ### sampleInput -/

@[simp] theorem sampleInput_cfg (k : Keys) : (s.sampleInput k).cfg = s.cfg := rfl
@[simp] theorem sampleInput_mem (k : Keys) : (s.sampleInput k).mem = s.mem := rfl
@[simp] theorem sampleInput_V (k : Keys) : (s.sampleInput k).V = s.V := rfl
@[simp] theorem sampleInput_I (k : Keys) : (s.sampleInput k).I = s.I := rfl
@[simp] theorem sampleInput_pc (k : Keys) : (s.sampleInput k).pc = s.pc := rfl
@[simp] theorem sampleInput_stack (k : Keys) : (s.sampleInput k).stack = s.stack := rfl
@[simp] theorem sampleInput_SP (k : Keys) : (s.sampleInput k).SP = s.SP := rfl
@[simp] theorem sampleInput_FB (k : Keys) : (s.sampleInput k).FB = s.FB := rfl
@[simp] theorem sampleInput_DT (k : Keys) : (s.sampleInput k).DT = s.DT := rfl
@[simp] theorem sampleInput_ST (k : Keys) : (s.sampleInput k).ST = s.ST := rfl
@[simp] theorem sampleInput_tone (k : Keys) : (s.sampleInput k).tone = s.tone := rfl
@[simp] theorem sampleInput_key (k : Keys) : (s.sampleInput k).key = k := rfl
@[simp] theorem sampleInput_lastPressed (k : Keys) : (s.sampleInput k).lastPressed = lowestKey k := rfl
@[simp] theorem sampleInput_runState (k : Keys) : (s.sampleInput k).runState = s.runState := rfl
@[simp] theorem sampleInput_instrFreq (k : Keys) : (s.sampleInput k).instrFreq = s.instrFreq := rfl
@[simp] theorem sampleInput_stepCount (k : Keys) : (s.sampleInput k).stepCount = s.stepCount := rfl
@[simp] theorem sampleInput_accum (k : Keys) : (s.sampleInput k).accum = s.accum := rfl
@[simp] theorem sampleInput_faulted (k : Keys) : (s.sampleInput k).faulted = s.faulted := rfl
@[simp] theorem sampleInput_faultPc (k : Keys) : (s.sampleInput k).faultPc = s.faultPc := rfl
@[simp] theorem sampleInput_log (k : Keys) : (s.sampleInput k).log = s.log := rfl
@[simp] theorem sampleInput_event (k : Keys) : (s.sampleInput k).event = .none := rfl
@[simp] theorem sampleInput_hostResult (k : Keys) : (s.sampleInput k).hostResult = s.hostResult := rfl
@[simp] theorem sampleInput_drawFrames (k : Keys) : (s.sampleInput k).drawFrames = s.drawFrames := rfl
@[simp] theorem sampleInput_phase (k : Keys) : (s.sampleInput k).phase = s.phase := rfl
@[simp] theorem sampleInput_hostActions (k : Keys) : (s.sampleInput k).hostActions = s.hostActions := rfl
@[simp] theorem sampleInput_closed (k : Keys) : (s.sampleInput k).closed = s.closed := rfl
@[simp] theorem sampleInput_keyInputs (k : Keys) : (s.sampleInput k).keyInputs = s.keyInputs := rfl
@[simp] theorem sampleInput_randomInputs (k : Keys) : (s.sampleInput k).randomInputs = s.randomInputs := rfl
@[simp] theorem sampleInput_freeIndex (k : Keys) : (s.sampleInput k).freeIndex = s.freeIndex := rfl

/-! ### setPhase -/

@[simp] theorem setPhase_cfg (p : Phase) : (s.setPhase p).cfg = s.cfg := rfl
@[simp] theorem setPhase_mem (p : Phase) : (s.setPhase p).mem = s.mem := rfl
@[simp] theorem setPhase_V (p : Phase) : (s.setPhase p).V = s.V := rfl
@[simp] theorem setPhase_I (p : Phase) : (s.setPhase p).I = s.I := rfl
@[simp] theorem setPhase_pc (p : Phase) : (s.setPhase p).pc = s.pc := rfl
@[simp] theorem setPhase_stack (p : Phase) : (s.setPhase p).stack = s.stack := rfl
@[simp] theorem setPhase_SP (p : Phase) : (s.setPhase p).SP = s.SP := rfl
@[simp] theorem setPhase_FB (p : Phase) : (s.setPhase p).FB = s.FB := rfl
@[simp] theorem setPhase_DT (p : Phase) : (s.setPhase p).DT = s.DT := rfl
@[simp] theorem setPhase_ST (p : Phase) : (s.setPhase p).ST = s.ST := rfl
@[simp] theorem setPhase_tone (p : Phase) : (s.setPhase p).tone = s.tone := rfl
@[simp] theorem setPhase_key (p : Phase) : (s.setPhase p).key = s.key := rfl
@[simp] theorem setPhase_lastPressed (p : Phase) : (s.setPhase p).lastPressed = s.lastPressed := rfl
@[simp] theorem setPhase_runState (p : Phase) : (s.setPhase p).runState = s.runState := rfl
@[simp] theorem setPhase_instrFreq (p : Phase) : (s.setPhase p).instrFreq = s.instrFreq := rfl
@[simp] theorem setPhase_stepCount (p : Phase) : (s.setPhase p).stepCount = s.stepCount := rfl
@[simp] theorem setPhase_accum (p : Phase) : (s.setPhase p).accum = s.accum := rfl
@[simp] theorem setPhase_faulted (p : Phase) : (s.setPhase p).faulted = s.faulted := rfl
@[simp] theorem setPhase_faultPc (p : Phase) : (s.setPhase p).faultPc = s.faultPc := rfl
@[simp] theorem setPhase_log (p : Phase) : (s.setPhase p).log = s.log := rfl
@[simp] theorem setPhase_event (p : Phase) : (s.setPhase p).event = s.event := rfl
@[simp] theorem setPhase_hostResult (p : Phase) : (s.setPhase p).hostResult = s.hostResult := rfl
@[simp] theorem setPhase_drawFrames (p : Phase) : (s.setPhase p).drawFrames = s.drawFrames := rfl
@[simp] theorem setPhase_phase (p : Phase) : (s.setPhase p).phase = p := rfl
@[simp] theorem setPhase_hostActions (p : Phase) : (s.setPhase p).hostActions = s.hostActions := rfl
@[simp] theorem setPhase_closed (p : Phase) : (s.setPhase p).closed = s.closed := rfl
@[simp] theorem setPhase_keyInputs (p : Phase) : (s.setPhase p).keyInputs = s.keyInputs := rfl
@[simp] theorem setPhase_randomInputs (p : Phase) : (s.setPhase p).randomInputs = s.randomInputs := rfl
@[simp] theorem setPhase_freeIndex (p : Phase) : (s.setPhase p).freeIndex = s.freeIndex := rfl

/-! ### tick -/

@[simp] theorem tick_cfg : (s.tick).cfg = s.cfg := rfl
@[simp] theorem tick_mem : (s.tick).mem = s.mem := rfl
@[simp] theorem tick_V : (s.tick).V = s.V := rfl
@[simp] theorem tick_I : (s.tick).I = s.I := rfl
@[simp] theorem tick_pc : (s.tick).pc = s.pc := rfl
@[simp] theorem tick_stack : (s.tick).stack = s.stack := rfl
@[simp] theorem tick_SP : (s.tick).SP = s.SP := rfl
@[simp] theorem tick_FB : (s.tick).FB = s.FB := rfl
@[simp] theorem tick_DT : (s.tick).DT = countDown s.DT := rfl
@[simp] theorem tick_ST : (s.tick).ST = countDown s.ST := rfl
@[simp] theorem tick_tone : (s.tick).tone = decide ((countDown s.ST).toNat > 0) := rfl
@[simp] theorem tick_key : (s.tick).key = s.key := rfl
@[simp] theorem tick_lastPressed : (s.tick).lastPressed = s.lastPressed := rfl
@[simp] theorem tick_runState : (s.tick).runState = s.runState := rfl
@[simp] theorem tick_instrFreq : (s.tick).instrFreq = s.instrFreq := rfl
@[simp] theorem tick_stepCount : (s.tick).stepCount = s.stepCount := rfl
@[simp] theorem tick_accum : (s.tick).accum = s.accum := rfl
@[simp] theorem tick_faulted : (s.tick).faulted = s.faulted := rfl
@[simp] theorem tick_faultPc : (s.tick).faultPc = s.faultPc := rfl
@[simp] theorem tick_log : (s.tick).log = s.log := rfl
@[simp] theorem tick_event : (s.tick).event = s.event := rfl
@[simp] theorem tick_hostResult : (s.tick).hostResult = s.hostResult := rfl
@[simp] theorem tick_drawFrames : (s.tick).drawFrames = s.drawFrames + 1 := rfl
@[simp] theorem tick_phase : (s.tick).phase = s.phase := rfl
@[simp] theorem tick_hostActions : (s.tick).hostActions = s.hostActions := rfl
@[simp] theorem tick_closed : (s.tick).closed = s.closed := rfl
@[simp] theorem tick_keyInputs : (s.tick).keyInputs = s.keyInputs := rfl
@[simp] theorem tick_randomInputs : (s.tick).randomInputs = s.randomInputs := rfl
@[simp] theorem tick_freeIndex : (s.tick).freeIndex = s.freeIndex := rfl

/-! ### finishFrame -/

@[simp] theorem finishFrame_cfg : (s.finishFrame).cfg = s.cfg := rfl
@[simp] theorem finishFrame_mem : (s.finishFrame).mem = s.mem := rfl
@[simp] theorem finishFrame_V : (s.finishFrame).V = s.V := rfl
@[simp] theorem finishFrame_I : (s.finishFrame).I = s.I := rfl
@[simp] theorem finishFrame_pc : (s.finishFrame).pc = s.pc := rfl
@[simp] theorem finishFrame_stack : (s.finishFrame).stack = s.stack := rfl
@[simp] theorem finishFrame_SP : (s.finishFrame).SP = s.SP := rfl
@[simp] theorem finishFrame_FB : (s.finishFrame).FB = s.FB := rfl
@[simp] theorem finishFrame_DT : (s.finishFrame).DT = countDown s.DT := rfl
@[simp] theorem finishFrame_ST : (s.finishFrame).ST = countDown s.ST := rfl
@[simp] theorem finishFrame_tone : (s.finishFrame).tone = decide ((countDown s.ST).toNat > 0) := rfl
@[simp] theorem finishFrame_key : (s.finishFrame).key = s.key := rfl
@[simp] theorem finishFrame_lastPressed : (s.finishFrame).lastPressed = s.lastPressed := rfl
@[simp] theorem finishFrame_runState : (s.finishFrame).runState = s.runState := rfl
@[simp] theorem finishFrame_instrFreq : (s.finishFrame).instrFreq = s.instrFreq := rfl
@[simp] theorem finishFrame_stepCount : (s.finishFrame).stepCount = s.stepCount := rfl
@[simp] theorem finishFrame_accum : (s.finishFrame).accum = 0 := rfl
@[simp] theorem finishFrame_faulted : (s.finishFrame).faulted = s.faulted := rfl
@[simp] theorem finishFrame_faultPc : (s.finishFrame).faultPc = s.faultPc := rfl
@[simp] theorem finishFrame_log : (s.finishFrame).log = s.log := rfl
@[simp] theorem finishFrame_event : (s.finishFrame).event = s.event := rfl
@[simp] theorem finishFrame_hostResult : (s.finishFrame).hostResult = s.hostResult := rfl
@[simp] theorem finishFrame_drawFrames : (s.finishFrame).drawFrames = s.drawFrames + 1 := rfl
@[simp] theorem finishFrame_phase : (s.finishFrame).phase = s.phase := rfl
@[simp] theorem finishFrame_hostActions : (s.finishFrame).hostActions = s.hostActions := rfl
@[simp] theorem finishFrame_closed : (s.finishFrame).closed = s.closed := rfl
@[simp] theorem finishFrame_keyInputs : (s.finishFrame).keyInputs = s.keyInputs := rfl
@[simp] theorem finishFrame_randomInputs : (s.finishFrame).randomInputs = s.randomInputs := rfl
@[simp] theorem finishFrame_freeIndex : (s.finishFrame).freeIndex = s.freeIndex := rfl

@[simp] theorem hold_eq : s.hold = s := rfl
@[simp] theorem undefinedEncoding_eq : s.undefinedEncoding = s.report .undefinedOpcode := rfl

end Sys2Proof.Laws.State
end

