-- ==== Sys2Proof/Laws/Memory.lean ====
section
/-! SUPPORT. The laws of memory: read after write, and the canonical form that every operation keeps. -/

namespace Sys2Proof.Laws.Memory

open Sys2Proof.Machine

/-- Addresses strictly rising: the half of the canonical form that reads and writes rest on. -/
abbrev Rising (m : Memory) : Prop := m.Pairwise (fun p q => p.1 < q.1)

theorem lookup_none_of_below {a : Nat} : ∀ {m : Memory}, (∀ p ∈ m, a < p.1) → m.lookup a = none
  | [], _ => rfl
  | c :: rest, h => by
    have hc : ¬ c.1 = a := by have := h c (by simp); omega
    simp only [Memory.lookup, if_neg hc]
    exact lookup_none_of_below (fun p hp => h p (by simp [hp]))

theorem lookup_mem {a : Nat} {v : Byte} : ∀ {m : Memory}, m.lookup a = some v → (a, v) ∈ m
  | [], h => by simp [Memory.lookup] at h
  | c :: rest, h => by
    by_cases hc : c.1 = a
    · simp only [Memory.lookup, if_pos hc, Option.some.injEq] at h
      simp [← hc, ← h]
    · simp only [Memory.lookup, if_neg hc] at h
      simp [lookup_mem h]

theorem lookup_of_mem {a : Nat} {v : Byte} : ∀ {m : Memory}, Rising m → (a, v) ∈ m → m.lookup a = some v
  | [], _, h => by simp at h
  | c :: rest, hm, h => by
    obtain ⟨hc, hr⟩ := List.pairwise_cons.1 hm
    rcases List.mem_cons.1 h with rfl | h
    · simp [Memory.lookup]
    · have := hc _ h
      simp only [Memory.lookup, if_neg (show ¬ c.1 = a by simp at this; omega)]
      exact lookup_of_mem hr h

/-- The cells after a store are old cells or the new one. -/
theorem mem_put {bg v : Byte} {a : Nat} : ∀ {m : Memory} {p : Host.Cell},
    p ∈ m.put bg a v → p ∈ m ∨ (p = (a, v) ∧ v ≠ bg)
  | [], p, h => by
    by_cases hv : v = bg <;> simp [Memory.put, hv] at h ⊢
    exact h
  | c :: rest, p, h => by
    unfold Memory.put at h
    split at h
    · split at h
      · exact .inl h
      · rcases List.mem_cons.1 h with rfl | h
        · exact .inr ⟨rfl, ‹_›⟩
        · exact .inl h
    · split at h
      · split at h
        · exact .inl (by simp [h])
        · rcases List.mem_cons.1 h with rfl | h
          · exact .inr ⟨rfl, ‹_›⟩
          · exact .inl (by simp [h])
      · rcases List.mem_cons.1 h with rfl | h
        · exact .inl (by simp)
        · rcases mem_put h with h | h
          · exact .inl (by simp [h])
          · exact .inr h

theorem put_rising {bg v : Byte} {a : Nat} : ∀ {m : Memory}, Rising m → Rising (m.put bg a v)
  | [], _ => by by_cases hv : v = bg <;> simp [Memory.put, hv, Rising]
  | c :: rest, hm => by
    obtain ⟨hc, hr⟩ := List.pairwise_cons.1 hm
    unfold Memory.put
    split
    · split
      · exact hm
      · refine List.pairwise_cons.2 ⟨fun p hp => ?_, hm⟩
        rcases List.mem_cons.1 hp with rfl | hp
        · assumption
        · have := hc p hp; simp only; omega
    · split
      · split
        · exact hr
        · exact List.pairwise_cons.2 ⟨fun p hp => by have := hc p hp; simp only; omega, hr⟩
      · refine List.pairwise_cons.2 ⟨fun p hp => ?_, put_rising hr⟩
        rcases mem_put hp with hp | ⟨rfl, -⟩
        · exact hc p hp
        · simp only; omega

theorem lookup_put_other {bg v : Byte} {a b : Nat} (hab : b ≠ a) : ∀ {m : Memory},
    (m.put bg a v).lookup b = m.lookup b
  | [] => by by_cases hv : v = bg <;> simp [Memory.put, hv, Memory.lookup, Ne.symm hab]
  | c :: rest => by
    unfold Memory.put
    split
    · split
      · rfl
      · simp [Memory.lookup, Ne.symm hab]
    · split
      · next hac =>
        have hcb : ¬ c.1 = b := by omega
        split
        · simp [Memory.lookup, hcb]
        · simp [Memory.lookup, hcb, Ne.symm hab]
      · simp only [Memory.lookup, lookup_put_other hab]

theorem lookup_put_same {bg v : Byte} {a : Nat} : ∀ {m : Memory}, Rising m →
    (m.put bg a v).lookup a = if v = bg then none else some v
  | [], _ => by by_cases hv : v = bg <;> simp [Memory.put, hv, Memory.lookup]
  | c :: rest, hm => by
    obtain ⟨hc, hr⟩ := List.pairwise_cons.1 hm
    unfold Memory.put
    split
    · split
      · next hac _ =>
        refine lookup_none_of_below fun p hp => ?_
        rcases List.mem_cons.1 hp with rfl | hp
        · exact hac
        · have := hc p hp; omega
      · simp [Memory.lookup]
    · split
      · next hac =>
        split
        · exact lookup_none_of_below fun p hp => by have := hc p hp; omega
        · simp [Memory.lookup]
      · next h1 h2 =>
        simp only [Memory.lookup, if_neg (show ¬ c.1 = a by omega), lookup_put_same hr]

/-- Read after write: a store reads back, and leaves every other address alone. -/
theorem read_write {c : Config} {m : Memory} (hm : Rising m) (a b : Nat) (v : Byte) :
    (m.write c a v).read c b = if b = a then v else m.read c b := by
  unfold Memory.read Memory.write
  by_cases h : b = a
  · subst h
    rw [lookup_put_same hm]
    by_cases hv : v = c.resetByte b <;> simp [hv]
  · rw [lookup_put_other h, if_neg h]

theorem read_write_other {c : Config} {m : Memory} {a b : Nat} (v : Byte) (h : b ≠ a) :
    (m.write c a v).read c b = m.read c b := by
  simp only [Memory.read, Memory.write, lookup_put_other h]

theorem write_rising {c : Config} {m : Memory} (hm : Rising m) (a : Nat) (v : Byte) : Rising (m.write c a v) :=
  put_rising hm

/-- A store to an address of memory keeps the canonical form. -/
theorem write_wf {c : Config} {m : Memory} (hm : m.wf c) {a : Nat} (ha : inMem a) (v : Byte) : (m.write c a v).wf c := by
  refine ⟨put_rising hm.1, fun p hp => ?_⟩
  rcases mem_put hp with hp | ⟨rfl, hv⟩
  · exact hm.2 p hp
  · exact ⟨ha, hv⟩

theorem nil_wf (c : Config) : Memory.wf c [] := by simp [Memory.wf]

theorem read_nil (c : Config) (a : Nat) : Memory.read c [] a = c.resetByte a := rfl

theorem writeAll_wf {c : Config} : ∀ (b : List Byte) (a : Nat) (m : Memory), m.wf c → a + b.length ≤ memSize →
    (Memory.writeAll c a b m).wf c
  | [], _, _, hm, _ => hm
  | x :: b, a, m, hm, ha => by
    simp only [List.length_cons] at ha
    exact writeAll_wf b (a + 1) _ (write_wf hm (by omega) x) (by omega)

/-- What plain stores at rising addresses leave in memory. -/
theorem read_writeAll {c : Config} : ∀ (b : List Byte) (a : Nat) (m : Memory), Rising m → ∀ k,
    (Memory.writeAll c a b m).read c k =
      if h : a ≤ k ∧ k - a < b.length then b[k - a]'h.2 else m.read c k
  | [], a, m, _, k => by simp [Memory.writeAll]
  | x :: b, a, m, hm, k => by
    simp only [Memory.writeAll]
    rw [read_writeAll b (a + 1) _ (write_rising hm a x) k, read_write hm]
    by_cases h1 : a + 1 ≤ k ∧ k - (a + 1) < b.length
    · have h2 : a ≤ k ∧ k - a < (x :: b).length := by simp; omega
      rw [dif_pos h1, dif_pos h2]
      have : k - a = (k - (a + 1)) + 1 := by omega
      simp [this]
    · rw [dif_neg h1]
      by_cases h3 : k = a
      · subst h3; simp
      · rw [if_neg h3, dif_neg (by simp; omega)]

/-- Two canonical memories that read alike are equal. -/
theorem eq_of_read_eq {c : Config} : ∀ {m n : Memory}, m.wf c → n.wf c → (∀ a, m.read c a = n.read c a) → m = n
  | [], [], _, _, _ => rfl
  | [], q :: n, _, hn, h => by
    exfalso
    have := h q.1
    simp only [Memory.read, Memory.lookup, if_true, Option.getD_none, Option.getD_some] at this
    exact (hn.2 q (by simp)).2 this.symm
  | p :: m, [], hm, _, h => by
    exfalso
    have := h p.1
    simp only [Memory.read, Memory.lookup, if_true, Option.getD_none, Option.getD_some] at this
    exact (hm.2 p (by simp)).2 this
  | p :: m, q :: n, hm, hn, h => by
    obtain ⟨hmp, hmr⟩ := List.pairwise_cons.1 hm.1
    obtain ⟨hnq, hnr⟩ := List.pairwise_cons.1 hn.1
    have hpq : p.1 = q.1 := by
      rcases Nat.lt_trichotomy p.1 q.1 with hlt | heq | hgt
      · exfalso
        have hx : Memory.lookup p.1 (q :: n) = none := lookup_none_of_below fun r hr => by
          rcases List.mem_cons.1 hr with rfl | hr
          · exact hlt
          · have := hnq r hr; omega
        have := h p.1
        unfold Memory.read at this
        rw [hx] at this
        exact (hm.2 p (by simp)).2 (by simpa [Memory.lookup] using this)
      · exact heq
      · exfalso
        have hx : Memory.lookup q.1 (p :: m) = none := lookup_none_of_below fun r hr => by
          rcases List.mem_cons.1 hr with rfl | hr
          · exact hgt
          · have := hmp r hr; omega
        have := h q.1
        unfold Memory.read at this
        rw [hx] at this
        exact (hn.2 q (by simp)).2 (by simpa [Memory.lookup] using this.symm)
    have hv : p.2 = q.2 := by
      have := h p.1
      simpa [Memory.read, Memory.lookup, hpq] using this
    have hcell : p = q := Prod.ext hpq hv
    subst hcell
    congr 1
    refine eq_of_read_eq ⟨hmr, fun r hr => hm.2 r (by simp [hr])⟩ ⟨hnr, fun r hr => hn.2 r (by simp [hr])⟩ fun a => ?_
    by_cases ha : p.1 = a
    · subst ha
      simp only [Memory.read, lookup_none_of_below hmp, lookup_none_of_below hnq]
    · have := h a
      simpa [Memory.read, Memory.lookup, ha] using this

/-! ### The state's memory operations -/

variable {s : State}

/-- Reading depends on the configuration and memory alone. -/
theorem readByte_congr {s t : State} (hc : t.cfg = s.cfg) (hm : t.mem = s.mem) (a : Nat) : t.readByte a = s.readByte a := by
  simp only [State.readByte, hc, hm]

/-- A store changes memory alone. -/
theorem memWrite_frame (a : Nat) (v : Byte) : s.memWrite a v = { s with mem := (s.memWrite a v).mem } := by
  unfold State.memWrite; split <;> rfl

theorem memWriteIn_frame (a : Nat) (v : Byte) : s.memWriteIn a v = { s with mem := (s.memWriteIn a v).mem } := by
  unfold State.memWriteIn; split
  · exact memWrite_frame a v
  · rfl

@[simp] theorem memWrite_cfg (a : Nat) (v : Byte) : (s.memWrite a v).cfg = s.cfg := by
  unfold State.memWrite; split <;> rfl

@[simp] theorem memWriteIn_cfg (a : Nat) (v : Byte) : (s.memWriteIn a v).cfg = s.cfg := by
  unfold State.memWriteIn; split <;> simp

@[simp] theorem memWriteIn_I (a : Nat) (v : Byte) : (s.memWriteIn a v).I = s.I := by
  rw [memWriteIn_frame]

@[simp] theorem memWrite_I (a : Nat) (v : Byte) : (s.memWrite a v).I = s.I := by
  rw [memWrite_frame]

@[simp] theorem memWrite_getV (a : Nat) (v : Byte) (x : Reg) : (s.memWrite a v).getV x = s.getV x := by
  rw [memWrite_frame]; rfl

@[simp] theorem memWriteIn_getV (a : Nat) (v : Byte) (x : Reg) : (s.memWriteIn a v).getV x = s.getV x := by
  rw [memWriteIn_frame]; rfl

theorem memWrite_rising (h : Rising s.mem) (a : Nat) (v : Byte) : Rising (s.memWrite a v).mem := by
  unfold State.memWrite; split
  · exact write_rising h a v
  · exact h

theorem memWriteIn_rising (h : Rising s.mem) (a : Nat) (v : Byte) : Rising (s.memWriteIn a v).mem := by
  unfold State.memWriteIn; split
  · exact memWrite_rising h a v
  · exact h

theorem memWrite_wf (h : s.mem.wf s.cfg) {a : Nat} (ha : inMem a) (v : Byte) : (s.memWrite a v).mem.wf s.cfg := by
  unfold State.memWrite; split
  · exact write_wf h ha v
  · exact h

theorem memWriteIn_wf (h : s.mem.wf s.cfg) (a : Nat) (v : Byte) : (s.memWriteIn a v).mem.wf s.cfg := by
  unfold State.memWriteIn; split
  · exact memWrite_wf h ‹_› v
  · exact h

/-- A store under the font policy reads back where the policy lets it, and nothing else changes (R66). -/
theorem readByte_memWrite (h : Rising s.mem) (a b : Nat) (v : Byte) :
    (s.memWrite a v).readByte b = if b = a ∧ writable s.cfg a then v else s.readByte b := by
  unfold State.memWrite
  split
  · next hw => simp only [State.readByte, read_write h, and_iff_left hw]
  · next hw => rw [if_neg (fun hb => hw hb.2)]

/-- The same for a store that is skipped out of range (R67). -/
theorem readByte_memWriteIn (h : Rising s.mem) (a b : Nat) (v : Byte) :
    (s.memWriteIn a v).readByte b = if b = a ∧ inMem a ∧ writable s.cfg a then v else s.readByte b := by
  unfold State.memWriteIn
  split
  · next hi => simp only [readByte_memWrite h, hi, true_and]
  · next hi => rw [if_neg (fun hb => hi hb.2.1)]

/-- What a store leaves in memory depends on the configuration and memory alone. -/
theorem memWrite_congr {s u : State} (hc : u.cfg = s.cfg) (hm : u.mem = s.mem) (a : Nat) (v : Byte) :
    (u.memWrite a v).mem = (s.memWrite a v).mem := by
  unfold State.memWrite; rw [hc]; split <;> simp [hm]

theorem memWriteIn_congr {s u : State} (hc : u.cfg = s.cfg) (hm : u.mem = s.mem) (a : Nat) (v : Byte) :
    (u.memWriteIn a v).mem = (s.memWriteIn a v).mem := by
  unfold State.memWriteIn; split
  · exact memWrite_congr hc hm a v
  · exact hm

end Sys2Proof.Laws.Memory
end

