-- ==== Sys2Proof/Laws/Ops.lean ====
section
/-! SUPPORT. What the shared operations over registers, the stack, the log and the inputs do. -/

namespace Sys2Proof.Laws.Ops

open Sys2Proof.Machine

variable {s : State}

/-! ### Registers -/

theorem getV_eq (x : Reg) : s.getV x = s.V[x.toNat] := rfl

theorem getV_congr {s t : State} (h : t.V = s.V) (x : Reg) : t.getV x = s.getV x := by
  simp only [State.getV, h]

/-- A register write reads back, and leaves every other register alone (R12). -/
theorem getV_setV (x r : Reg) (v : Byte) : (s.setV x v).getV r = if r = x then v else s.getV r := by
  unfold State.getV State.setV
  simp only [Vector.getElem_set]
  by_cases h : r = x
  · simp [h]
  · have : ¬ x.toNat = r.toNat := fun e => h (BitVec.eq_of_toNat_eq e.symm)
    simp [h, this]

/-- Two register files that read alike are equal. -/
theorem V_ext {s t : State} (h : ∀ r, t.getV r = s.getV r) : t.V = s.V := by
  apply Vector.ext
  intro i hi
  have := h (BitVec.ofNatLT i hi)
  simpa [State.getV] using this

/-- The result and the flag of a flagged operation (R148): VF holds the flag, even when it is the destination. -/
theorem getV_setResultAndFlag (x r : Reg) (v : Byte) (f : Bool) :
    (s.setResultAndFlag x v f).getV r = if r = vf then flagByte f else if r = x then v else s.getV r := by
  unfold State.setResultAndFlag
  rw [getV_setV, getV_setV]

theorem setResultAndFlag_frame (x : Reg) (v : Byte) (f : Bool) :
    s.setResultAndFlag x v f = { s with V := (s.setResultAndFlag x v f).V } := rfl

/-- VF after a logic operation (R145). -/
theorem getV_logicVfPolicy (r : Reg) :
    s.logicVfPolicy.getV r = if r = vf ∧ s.cfg.logicVf = .zero then 0 else s.getV r := by
  unfold State.logicVfPolicy
  cases h : s.cfg.logicVf
  · simp
  · simp [getV_setV]

theorem logicVfPolicy_frame : s.logicVfPolicy = { s with V := s.logicVfPolicy.V } := by
  unfold State.logicVfPolicy; split <;> rfl

@[simp] theorem getV_setPc (v : Word) (r : Reg) : (s.setPc v).getV r = s.getV r := rfl
@[simp] theorem getV_setI (v : Word) (r : Reg) : (s.setI v).getV r = s.getV r := rfl
@[simp] theorem getV_advance (r : Reg) : s.advance.getV r = s.getV r := rfl
@[simp] theorem readByte_setPc (v : Word) (a : Nat) : (s.setPc v).readByte a = s.readByte a := rfl
@[simp] theorem readByte_setV (x : Reg) (v : Byte) (a : Nat) : (s.setV x v).readByte a = s.readByte a := rfl
@[simp] theorem readByte_setI (v : Word) (a : Nat) : (s.setI v).readByte a = s.readByte a := rfl
@[simp] theorem readByte_advance (a : Nat) : s.advance.readByte a = s.readByte a := rfl

/-! ### Operand values (R92, R130, R167) -/

theorem toNat_addrOperand (nnn : Addr) : (addrOperand nnn).toNat = nnn.toNat := by
  have := nnn.isLt
  simp only [addrOperand, zext16, BitVec.toNat_setWidth]; omega

theorem toNat_jumpOffsetTarget (nnn : Addr) : (jumpOffsetTarget s nnn).toNat = (s.getV 0).toNat + nnn.toNat := by
  have := nnn.isLt; have := (s.getV 0).isLt
  simp only [jumpOffsetTarget, zext16, BitVec.toNat_add, BitVec.toNat_setWidth]; omega

theorem toNat_glyphAddr (v : Byte) : (glyphAddr v).toNat = v.toNat * 5 := by
  have := v.isLt
  simp [glyphAddr, zext16]; omega

theorem toNat_flagByte (f : Bool) : (flagByte f).toNat = if f = true then 1 else 0 := by cases f <;> rfl

/-- A timer after a tick (R225). -/
theorem toNat_countDown (t : Byte) : (countDown t).toNat = t.toNat - 1 := by
  have := t.isLt
  unfold countDown; split
  · rw [BitVec.toNat_sub]; simp; omega
  · omega

/-- The test of SKP and SKNP (R196). -/
theorem keyPressed_eq (k : Byte) : keyPressed s k = decide (k.toNat < 16 ∧ s.key.getLsbD k.toNat = true) := by
  unfold keyPressed; split <;> simp [*]

/-! ### Call stack -/

theorem slot_eq {k : Nat} (h : k < 16) : s.slot k = s.stack[k] := by simp [State.slot, h]

theorem slot_congr {s t : State} (h : t.stack = s.stack) (k : Nat) : t.slot k = s.slot k := by
  simp only [State.slot, h]

/-- A push writes the slot at SP and no other (R28). -/
theorem slot_push (h : s.SP < 16) (v : Word) (k : Nat) :
    (s.push v).slot k = if k = s.SP then v else s.slot k := by
  unfold State.slot State.push
  by_cases hk : k < 16
  · simp only [hk, dif_pos, Vector.getElem_setIfInBounds]
    by_cases he : k = s.SP
    · simp [he]
    · simp [he, Ne.symm he]
  · have : k ≠ s.SP := by omega
    simp [hk, this]

/-! ### Log -/

/-- Appending to a ring that is not full adds the record; to a full ring, it first evicts the oldest (R44). -/
theorem ringAppend_eq {cap : Nat} {l : List LogRecord} (hc : 1 ≤ cap) (hl : l.length ≤ cap) (r : LogRecord) :
    ringAppend cap l r = (if l.length < cap then l else l.tail) ++ [r] := by
  unfold ringAppend
  split
  · next h => rw [show l.length + 1 - cap = 0 by omega]; rfl
  · next h =>
    have he : l.length + 1 - cap = 1 := by omega
    cases l with
    | nil => simp at h; omega
    | cons a l => rw [he]; rfl

theorem ringAppend_length_le {cap : Nat} (hc : 1 ≤ cap) (l : List LogRecord) (r : LogRecord) :
    (ringAppend cap l r).length ≤ cap := by
  simp only [ringAppend, List.length_drop, List.length_append, List.length_singleton]; omega

theorem mem_ringAppend {cap : Nat} {l : List LogRecord} {r q : LogRecord} (h : q ∈ ringAppend cap l r) : q ∈ l ∨ q = r := by
  have := List.mem_of_mem_drop h
  simpa using this

/-! ### Inputs -/

theorem dropKeys_frame : s.dropKeys = { s with keyInputs := s.dropKeys.keyInputs, freeIndex := s.dropKeys.freeIndex } := by
  unfold State.dropKeys; split <;> rfl

theorem dropRandom_frame :
    s.dropRandom = { s with randomInputs := s.dropRandom.randomInputs, freeIndex := s.dropRandom.freeIndex } := by
  unfold State.dropRandom; split <;> rfl

@[simp] theorem getV_dropRandom (r : Reg) : s.dropRandom.getV r = s.getV r := by
  rw [dropRandom_frame]; rfl

/-! ### The key snapshot (R37) -/

theorem lowestKey_none_iff {k : Keys} : lowestKey k = none ↔ ∀ i, i < 16 → k.getLsbD i = false := by
  unfold lowestKey
  rw [List.find?_eq_none]
  constructor
  · intro h i hi
    have := h ⟨i, hi⟩ (List.mem_finRange _)
    simpa using this
  · intro h i _
    have := h i.val i.isLt
    simp only [this]; simp

theorem lowestKey_some {k : Keys} {i : Fin 16} (h : lowestKey k = some i) :
    k.getLsbD i.val = true ∧ ∀ j, j < i.val → k.getLsbD j = false := by
  unfold lowestKey at h
  rw [List.find?_eq_some_iff_getElem] at h
  obtain ⟨hk, n, hn, he, hlt⟩ := h
  refine ⟨hk, fun j hj => ?_⟩
  have hin : i.val = n := by rw [← he]; simp
  have := hlt j (by omega)
  simpa using this

theorem lowestKey_eq_none_iff_zero {k : Keys} : lowestKey k = none ↔ k = 0 := by
  rw [lowestKey_none_iff]
  constructor
  · intro h
    apply BitVec.eq_of_getLsbD_eq
    intro i hi
    simp [h i hi]
  · rintro rfl i _
    simp

end Sys2Proof.Laws.Ops
end

