-- ==== Sys2Proof/Laws/IndexMemory.lean ====
section
/-! SUPPORT. What the block store, the block load and the BCD store do (`42_index_memory.md` R169 to R171). -/

namespace Sys2Proof.Laws.IndexMemory

open Sys2Proof.Machine Sys2Proof.Laws.Memory Sys2Proof.Laws.Ops

theorem indexAddr_congr {s t : State} (h : t.I = s.I) (k : Nat) : indexAddr t k = indexAddr s k := by
  simp only [indexAddr, h]

@[simp] theorem indexAddr_memWrite (s : State) (a : Nat) (v : Byte) (k : Nat) :
    indexAddr (s.memWrite a v) k = indexAddr s k := indexAddr_congr (memWrite_I a v) k
@[simp] theorem indexAddr_setV (s : State) (x : Reg) (v : Byte) (k : Nat) :
    indexAddr (s.setV x v) k = indexAddr s k := rfl

/-- The block store changes memory alone. -/
theorem storeRegs_frame : ∀ (left i : Nat) (s : State),
    storeRegs left i s = { s with mem := (storeRegs left i s).mem }
  | 0, _, _ => rfl
  | left + 1, i, s => by
    unfold storeRegs
    split
    · generalize hw : s.memWrite (indexAddr s i) (s.getV (regOf i)) = w
      have := memWrite_frame (s := s) (indexAddr s i) (s.getV (regOf i))
      rw [hw] at this
      rw [storeRegs_frame left (i + 1) w]
      rw [this]
    · rfl

theorem storeRegs_rising : ∀ (left i : Nat) (s : State), Rising s.mem → Rising (storeRegs left i s).mem
  | 0, _, _, h => h
  | left + 1, i, s, h => by
    unfold storeRegs
    split
    · exact storeRegs_rising left (i + 1) _ (memWrite_rising h _ _)
    · exact h

theorem storeRegs_wf : ∀ (left i : Nat) (s : State), s.mem.wf s.cfg → (storeRegs left i s).mem.wf s.cfg
  | 0, _, _, h => h
  | left + 1, i, s, h => by
    unfold storeRegs
    split
    · have := storeRegs_wf left (i + 1) (s.memWrite (indexAddr s i) (s.getV (regOf i)))
      rw [memWrite_cfg] at this
      exact this (memWrite_wf h ‹_› _)
    · exact h

/-- The block store, byte by byte: address I + k gets V[k] for i ≤ k < i + left, where it is in memory and FONT_WRITE lets
it (R170, R66). -/
theorem readByte_storeRegs : ∀ (left i : Nat) (s : State), Rising s.mem → ∀ a,
    (storeRegs left i s).readByte a =
      if indexAddr s i ≤ a ∧ a < indexAddr s (i + left) ∧ inMem a ∧ writable s.cfg a then
        s.getV (regOf (a - s.I.toNat)) else s.readByte a
  | 0, i, s, _, a => by
    rw [if_neg (by simp only [indexAddr]; omega)]; rfl
  | left + 1, i, s, h, a => by
    unfold storeRegs
    split
    · next hi =>
      rw [readByte_storeRegs left (i + 1) _ (memWrite_rising h _ _) a, readByte_memWrite h]
      have hia : ∀ k, indexAddr s k = s.I.toNat + k := fun _ => rfl
      simp only [indexAddr_memWrite, memWrite_cfg, memWrite_getV, memWrite_I, hia] at hi ⊢
      by_cases hw : writable s.cfg a
      · by_cases ha : a = s.I.toNat + i
        · subst ha
          rw [if_neg (by omega), if_pos ⟨rfl, hw⟩, if_pos (by refine ⟨by omega, by omega, hi, hw⟩)]
          congr 2; omega
        · by_cases hr : s.I.toNat + (i + 1) ≤ a ∧ a < s.I.toNat + (i + 1 + left) ∧ inMem a ∧ writable s.cfg a
          · rw [if_pos hr, if_pos ⟨by omega, by omega, hr.2.2⟩]
          · rw [if_neg hr, if_neg (fun hx => ha hx.1), if_neg]
            rintro ⟨h1, h2, h3⟩
            exact hr ⟨by omega, by omega, h3⟩
      · rw [if_neg (fun hx => hw hx.2.2.2), if_neg (fun hx => hw (by rw [hx.1]; exact hx.2)),
          if_neg (fun hx => hw hx.2.2.2)]
    · next hi =>
      rw [if_neg]
      rintro ⟨h1, h2, h3, -⟩
      simp only [indexAddr] at *
      exact hi (by omega)

/-- The block load changes V alone. -/
theorem loadRegs_frame : ∀ (left i : Nat) (s : State),
    loadRegs left i s = { s with V := (loadRegs left i s).V }
  | 0, _, _ => rfl
  | left + 1, i, s => by
    unfold loadRegs
    split
    · rw [loadRegs_frame left (i + 1) (s.setV (regOf i) (s.readByte (indexAddr s i)))]
      rfl
    · rfl

theorem toNat_regOf {k : Nat} (h : k < 16) : (regOf k).toNat = k := by
  simp only [regOf, BitVec.toNat_ofNat]; omega

/-- The block load, register by register: Vk gets the byte at I + k for i ≤ k < i + left, where it is in memory (R171). -/
theorem getV_loadRegs : ∀ (left i : Nat) (s : State), i + left ≤ 16 → ∀ r : Reg,
    (loadRegs left i s).getV r =
      if i ≤ r.toNat ∧ r.toNat < i + left ∧ inMem (indexAddr s r.toNat) then
        s.readByte (indexAddr s r.toNat) else s.getV r
  | 0, i, s, _, r => by
    rw [if_neg (by omega)]; rfl
  | left + 1, i, s, hb, r => by
    unfold loadRegs
    split
    · next hi =>
      rw [getV_loadRegs left (i + 1) _ (by omega) r, getV_setV]
      have hia : ∀ k, indexAddr (s.setV (regOf i) (s.readByte (indexAddr s i))) k = indexAddr s k := fun _ => rfl
      simp only [hia, readByte_setV]
      have hri : r = regOf i ↔ r.toNat = i := by
        rw [← BitVec.toNat_inj, toNat_regOf (by omega)]
      by_cases hr : r.toNat = i
      · rw [if_neg (fun hx => by omega), if_pos (hri.2 hr), if_pos ⟨by omega, by omega, by rw [hr]; exact hi⟩, hr]
      · by_cases hx : i + 1 ≤ r.toNat ∧ r.toNat < i + 1 + left ∧ inMem (indexAddr s r.toNat)
        · rw [if_pos hx, if_pos ⟨by omega, by omega, hx.2.2⟩]
        · rw [if_neg hx, if_neg (fun e => hr (hri.1 e)), if_neg]
          rintro ⟨h1, h2, h3⟩
          exact hx ⟨by omega, by omega, h3⟩
    · next hi =>
      rw [if_neg]
      rintro ⟨h1, h2, h3⟩
      simp only [indexAddr] at *
      exact hi (by omega)

theorem regOf_toNat (r : Reg) : regOf r.toNat = r := by
  apply BitVec.eq_of_toNat_eq; rw [toNat_regOf r.isLt]

/-- What the block store leaves in memory depends on the configuration, memory, V and I alone. -/
theorem storeRegs_congr : ∀ (l i : Nat) {s u : State}, u.cfg = s.cfg → u.mem = s.mem → u.V = s.V → u.I = s.I →
    (storeRegs l i u).mem = (storeRegs l i s).mem
  | 0, _, _, _, _, hm, _, _ => hm
  | l + 1, i, s, u, hc, hm, hV, hI => by
    unfold storeRegs
    rw [indexAddr_congr hI]
    split
    · refine storeRegs_congr l (i + 1) ?_ ?_ ?_ ?_
      · simp [hc]
      · rw [getV_congr hV]; exact memWrite_congr hc hm _ _
      · rw [memWrite_frame (s := u), memWrite_frame (s := s)]; exact hV
      · simp [hI]
    · exact hm

/-- What the block load leaves in V, likewise. -/
theorem loadRegs_congr : ∀ (l i : Nat) {s u : State}, u.cfg = s.cfg → u.mem = s.mem → u.V = s.V → u.I = s.I →
    (loadRegs l i u).V = (loadRegs l i s).V
  | 0, _, _, _, _, _, hV, _ => hV
  | l + 1, i, s, u, hc, hm, hV, hI => by
    unfold loadRegs
    rw [indexAddr_congr hI]
    split
    · refine loadRegs_congr l (i + 1) hc hm ?_ hI
      simp [State.setV, hV, readByte_congr hc hm]
    · exact hV

end Sys2Proof.Laws.IndexMemory
end

