-- ==== Sys2Proof/Laws/Display.lean ====
section
/-! SUPPORT. What drawing does, pixel by pixel (`43_display.md` R181, R182). -/

namespace Sys2Proof.Laws.Display

open Sys2Proof.Machine Sys2Proof.Safety Sys2Proof.Laws.Memory Sys2Proof.Laws.Ops Sys2Proof.Laws.IndexMemory

theorem pixel_replicate (px py : Nat) : pixel (Vector.replicate 32 0) px py = false := by
  unfold pixel; split <;> simp

/-- Two framebuffers with the same pixels are equal. -/
theorem fb_ext {f g : FrameBuffer} (h : ∀ px py, px < 64 → py < 32 → pixel f px py = pixel g px py) : f = g := by
  apply Vector.ext
  intro py hpy
  apply BitVec.eq_of_getLsbD_eq
  intro px hpx
  have := h px py hpx hpy
  simpa [pixel, hpy] using this

/-- Toggling a pixel of the grid changes that pixel and no other (R181). -/
theorem pixel_togglePixel (fb : FrameBuffer) {px py : Nat} (hx : px < 64) (hy : py < 32) (qx qy : Nat) :
    pixel (togglePixel fb px py) qx qy = (pixel fb qx qy ^^ decide (qx = px ∧ qy = py)) := by
  unfold pixel togglePixel
  by_cases hqy : qy < 32
  · simp only [hqy, hy, dif_pos, Vector.getElem_set]
    by_cases he : py = qy
    · subst he
      by_cases hq : qx = px
      · subst hq; simp [hx]
      · simp [BitVec.getLsbD_xor, BitVec.getLsbD_twoPow, hq, Ne.symm hq]
    · simp [he, Ne.symm he]
  · have : qy ≠ py := by omega
    simp [hqy, this]

/-- What a drawing has come to once the pixels of `P`, each of them once, have been toggled: the pixels of `P` are flipped, and
the collision bit is set if one of them was set (R182). -/
structure Drawn (d e : Drawing) (P : Nat → Nat → Prop) : Prop where
  flipped : ∀ px py, px < 64 → py < 32 → P px py → pixel e.1 px py = !pixel d.1 px py
  kept : ∀ px py, px < 64 → py < 32 → ¬ P px py → pixel e.1 px py = pixel d.1 px py
  hit : e.2 = true ↔ d.2 = true ∨ ∃ px py, px < 64 ∧ py < 32 ∧ P px py ∧ pixel d.1 px py = true

theorem Drawn.refl (d : Drawing) {P : Nat → Nat → Prop} (h : ∀ px py, px < 64 → py < 32 → ¬ P px py) : Drawn d d P where
  flipped px py hx hy hp := absurd hp (h px py hx hy)
  kept _ _ _ _ _ := rfl
  hit := ⟨.inl, fun h' => h'.elim id fun ⟨px, py, hx, hy, hp, _⟩ => absurd hp (h px py hx hy)⟩

/-- Drawing disjoint sets of pixels one after the other draws their union. -/
theorem Drawn.trans {d e f : Drawing} {P Q R : Nat → Nat → Prop} (h1 : Drawn d e P) (h2 : Drawn e f Q)
    (hR : ∀ px py, px < 64 → py < 32 → (R px py ↔ P px py ∨ Q px py))
    (hd : ∀ px py, px < 64 → py < 32 → P px py → ¬ Q px py) : Drawn d f R where
  flipped px py hx hy hp := by
    rcases (hR px py hx hy).1 hp with h | h
    · rw [h2.kept px py hx hy (hd px py hx hy h), h1.flipped px py hx hy h]
    · rw [h2.flipped px py hx hy h, h1.kept px py hx hy (fun hp' => hd px py hx hy hp' h)]
  kept px py hx hy hp := by
    have hn := fun h => hp ((hR px py hx hy).2 h)
    rw [h2.kept px py hx hy (fun h => hn (.inr h)), h1.kept px py hx hy (fun h => hn (.inl h))]
  hit := by
    rw [h2.hit, h1.hit]
    constructor
    · rintro ((h | ⟨px, py, hx, hy, hp, hv⟩) | ⟨px, py, hx, hy, hp, hv⟩)
      · exact .inl h
      · exact .inr ⟨px, py, hx, hy, (hR px py hx hy).2 (.inl hp), hv⟩
      · refine .inr ⟨px, py, hx, hy, (hR px py hx hy).2 (.inr hp), ?_⟩
        rwa [h1.kept px py hx hy (fun hp' => hd px py hx hy hp' hp)] at hv
    · rintro (h | ⟨px, py, hx, hy, hr, hv⟩)
      · exact .inl (.inl h)
      · rcases (hR px py hx hy).1 hr with hp | hp
        · exact .inl (.inr ⟨px, py, hx, hy, hp, hv⟩)
        · refine .inr ⟨px, py, hx, hy, hp, ?_⟩
          rwa [h1.kept px py hx hy (fun hp' => hd px py hx hy hp' hp)]

theorem drawn_xorPixel {px py : Nat} (hx : px < 64) (hy : py < 32) (d : Drawing) :
    Drawn d (xorPixel px py d) (fun qx qy => qx = px ∧ qy = py) where
  flipped qx qy _ _ h := by simp [xorPixel, pixel_togglePixel _ hx hy, h]
  kept qx qy _ _ h := by simp [xorPixel, pixel_togglePixel _ hx hy, h]
  hit := by
    simp only [xorPixel, Bool.or_eq_true]
    constructor
    · rintro (h | h)
      · exact .inl h
      · exact .inr ⟨px, py, hx, hy, ⟨rfl, rfl⟩, h⟩
    · rintro (h | ⟨qx, qy, _, _, ⟨rfl, rfl⟩, h⟩)
      · exact .inl h
      · exact .inr h

theorem drawn_drawColumn (x0 : Nat) {py : Nat} (hy : py < 32) (row : Byte) (b : Nat) (d : Drawing) :
    Drawn d (drawColumn x0 py row b d) (fun qx qy => qx = x0 + b ∧ qy = py ∧ row.getLsbD (7 - b) = true) := by
  unfold drawColumn
  split
  · next hr =>
    split
    · next hx =>
      simpa [hr] using drawn_xorPixel hx hy d
    · exact Drawn.refl d fun px py' hpx _ h => by omega
  · next hr => exact Drawn.refl d fun _ _ _ _ h => hr h.2.2

theorem drawn_drawColumns (x0 : Nat) {py : Nat} (hy : py < 32) (row : Byte) : ∀ (left b : Nat) (d : Drawing),
    Drawn d (drawColumns x0 py row left b d)
      (fun qx qy => qy = py ∧ x0 + b ≤ qx ∧ qx < x0 + b + left ∧ row.getLsbD (7 - (qx - x0)) = true)
  | 0, b, d => Drawn.refl d fun px py' _ _ h => by omega
  | left + 1, b, d => by
    refine (drawn_drawColumn x0 hy row b d).trans (drawn_drawColumns x0 hy row left (b + 1) _) ?_ ?_
    · intro qx qy _ _
      constructor
      · rintro ⟨h1, h2, h3, h4⟩
        by_cases he : qx = x0 + b
        · subst he; exact .inl ⟨rfl, h1, by simpa using h4⟩
        · exact .inr ⟨h1, by omega, by omega, h4⟩
      · rintro (⟨h1, h2, h3⟩ | ⟨h1, h2, h3, h4⟩)
        · subst h1; exact ⟨h2, by omega, by omega, by simpa using h3⟩
        · exact ⟨h1, by omega, by omega, h4⟩
    · rintro qx qy _ _ ⟨h1, -, -⟩ ⟨-, h2, -, -⟩
      omega

theorem drawn_drawRows (s : State) (x0 y0 : Nat) : ∀ (left r : Nat) (d : Drawing),
    Drawn d (drawRows s x0 y0 left r d)
      (fun qx qy => y0 + r ≤ qy ∧ qy < y0 + r + left ∧ x0 ≤ qx ∧ qx < x0 + 8 ∧
        inMem (indexAddr s (qy - y0)) ∧ (s.readByte (indexAddr s (qy - y0))).getLsbD (7 - (qx - x0)) = true)
  | 0, r, d => Drawn.refl d fun px py' _ _ h => by omega
  | left + 1, r, d => by
    unfold drawRows
    split
    · next hi =>
      have h1 : Drawn d (if y0 + r < 32 then drawColumns x0 (y0 + r) (s.readByte (indexAddr s r)) 8 0 d else d)
          (fun qx qy => qy = y0 + r ∧ x0 ≤ qx ∧ qx < x0 + 8 ∧
            (s.readByte (indexAddr s r)).getLsbD (7 - (qx - x0)) = true) := by
        split
        · next hy => exact drawn_drawColumns x0 hy _ 8 0 d
        · exact Drawn.refl d fun px py' _ hpy h => by omega
      refine h1.trans (drawn_drawRows s x0 y0 left (r + 1) _) ?_ ?_
      · intro qx qy _ _
        constructor
        · rintro ⟨h1, h2, h3, h4, h5, h6⟩
          by_cases he : qy = y0 + r
          · subst he; exact .inl ⟨rfl, h3, h4, by simpa using h6⟩
          · exact .inr ⟨by omega, by omega, h3, h4, h5, h6⟩
        · rintro (⟨h1, h2, h3, h4⟩ | ⟨h1, h2, h3, h4, h5, h6⟩)
          · subst h1
            refine ⟨by omega, by omega, h2, h3, ?_, ?_⟩
            · simpa using hi
            · simpa using h4
          · exact ⟨by omega, by omega, h3, h4, h5, h6⟩
      · rintro qx qy _ _ ⟨h1, -, -, -⟩ ⟨h2, -⟩
        omega
    · next hi =>
      refine Drawn.refl d fun px py' _ _ h => hi ?_
      have := h.2.2.2.2.1
      simp only [indexAddr] at this ⊢
      omega

/-- DRW's drawing: exactly the covered pixels are flipped, and the collision bit says whether one of them was set (R182). -/
theorem drawn_drawSprite (s : State) (x y : Reg) (n : Nibble) :
    Drawn (s.FB, false) (drawSprite s x y n) (spriteCovers s x y n) :=
  drawn_drawRows s (spriteColumn (s.getV x)) (spriteRow (s.getV y)) n.toNat 0 (s.FB, false)

theorem drawRows_congr {s u : State} (hc : u.cfg = s.cfg) (hm : u.mem = s.mem) (hI : u.I = s.I) (x0 y0 : Nat) :
    ∀ (l r : Nat) (d : Drawing), drawRows u x0 y0 l r d = drawRows s x0 y0 l r d
  | 0, _, _ => rfl
  | l + 1, r, d => by
    unfold drawRows
    rw [indexAddr_congr hI, readByte_congr hc hm]
    split
    · exact drawRows_congr hc hm hI x0 y0 l _ _
    · rfl

/-- A drawing depends on the configuration, memory, V, I and FB alone. -/
theorem drawSprite_congr {s u : State} (hc : u.cfg = s.cfg) (hm : u.mem = s.mem) (hV : u.V = s.V) (hI : u.I = s.I) (hF : u.FB = s.FB)
    (x y : Reg) (n : Nibble) :
    drawSprite u x y n = drawSprite s x y n := by
  unfold drawSprite
  rw [getV_congr hV, getV_congr hV, hF, drawRows_congr hc hm hI]

end Sys2Proof.Laws.Display
end

