-- ==== Sys2Proof/Laws/Decode.lean ====
section
/-! SUPPORT. The fields of each format (R90, R91), and an opcode as its fields: what the round trip of decoding and encoding
rests on. -/

namespace Sys2Proof.Laws.Decode

theorem toNat_formatA (g : Nibble) (nnn : Addr) : (formatA g nnn).toNat = g.toNat * 4096 + nnn.toNat := by
  unfold formatA
  rw [BitVec.toNat_append, ← Nat.shiftLeft_add_eq_or_of_lt nnn.isLt, Nat.shiftLeft_eq]

theorem toNat_formatXK (g : Nibble) (x : Reg) (kk : Byte) :
    (formatXK g x kk).toNat = g.toNat * 4096 + x.toNat * 256 + kk.toNat := by
  unfold formatXK
  have h : (x ++ kk).toNat = x.toNat * 256 + kk.toNat := by
    rw [BitVec.toNat_append, ← Nat.shiftLeft_add_eq_or_of_lt kk.isLt, Nat.shiftLeft_eq]
  rw [BitVec.toNat_append, ← Nat.shiftLeft_add_eq_or_of_lt (x ++ kk).isLt, Nat.shiftLeft_eq, h]
  omega

theorem toNat_formatXYN (g : Nibble) (x y : Reg) (n : Nibble) :
    (formatXYN g x y n).toNat = g.toNat * 4096 + x.toNat * 256 + y.toNat * 16 + n.toNat := by
  unfold formatXYN
  have h1 : (y ++ n).toNat = y.toNat * 16 + n.toNat := by
    rw [BitVec.toNat_append, ← Nat.shiftLeft_add_eq_or_of_lt n.isLt, Nat.shiftLeft_eq]
  have h : (x ++ (y ++ n)).toNat = x.toNat * 256 + y.toNat * 16 + n.toNat := by
    rw [BitVec.toNat_append, ← Nat.shiftLeft_add_eq_or_of_lt (y ++ n).isLt, Nat.shiftLeft_eq, h1]
    omega
  rw [BitVec.toNat_append, ← Nat.shiftLeft_add_eq_or_of_lt (x ++ (y ++ n)).isLt, Nat.shiftLeft_eq, h]
  omega

theorem toNat_fieldG (op : Word) : (fieldG op).toNat = op.toNat / 4096 := by
  have := op.isLt
  simp only [fieldG, BitVec.extractLsb'_toNat, Nat.shiftRight_eq_div_pow]; omega
theorem toNat_fieldX (op : Word) : (fieldX op).toNat = op.toNat / 256 % 16 := by
  simp only [fieldX, BitVec.extractLsb'_toNat, Nat.shiftRight_eq_div_pow]
theorem toNat_fieldY (op : Word) : (fieldY op).toNat = op.toNat / 16 % 16 := by
  simp only [fieldY, BitVec.extractLsb'_toNat, Nat.shiftRight_eq_div_pow]
theorem toNat_fieldN (op : Word) : (fieldN op).toNat = op.toNat % 16 := by
  simp only [fieldN, BitVec.extractLsb'_toNat, Nat.shiftRight_eq_div_pow]; omega
theorem toNat_fieldKK (op : Word) : (fieldKK op).toNat = op.toNat % 256 := by
  simp only [fieldKK, BitVec.extractLsb'_toNat, Nat.shiftRight_eq_div_pow]; omega
theorem toNat_fieldNNN (op : Word) : (fieldNNN op).toNat = op.toNat % 4096 := by
  simp only [fieldNNN, BitVec.extractLsb'_toNat, Nat.shiftRight_eq_div_pow]; omega

section fields
variable (g : Nibble) (x y : Reg) (n : Nibble) (kk : Byte) (nnn : Addr)

@[simp] theorem fieldG_formatA : fieldG (formatA g nnn) = g := by
  apply BitVec.eq_of_toNat_eq; rw [toNat_fieldG, toNat_formatA]; have := nnn.isLt; omega
@[simp] theorem fieldNNN_formatA : fieldNNN (formatA g nnn) = nnn := by
  apply BitVec.eq_of_toNat_eq; rw [toNat_fieldNNN, toNat_formatA]; have := nnn.isLt; omega
@[simp] theorem fieldG_formatXK : fieldG (formatXK g x kk) = g := by
  apply BitVec.eq_of_toNat_eq; rw [toNat_fieldG, toNat_formatXK]; have := x.isLt; have := kk.isLt; omega
@[simp] theorem fieldX_formatXK : fieldX (formatXK g x kk) = x := by
  apply BitVec.eq_of_toNat_eq; rw [toNat_fieldX, toNat_formatXK]; have := x.isLt; have := kk.isLt; omega
@[simp] theorem fieldKK_formatXK : fieldKK (formatXK g x kk) = kk := by
  apply BitVec.eq_of_toNat_eq; rw [toNat_fieldKK, toNat_formatXK]; have := kk.isLt; omega
@[simp] theorem fieldG_formatXYN : fieldG (formatXYN g x y n) = g := by
  apply BitVec.eq_of_toNat_eq; rw [toNat_fieldG, toNat_formatXYN]
  have := x.isLt; have := y.isLt; have := n.isLt; omega
@[simp] theorem fieldX_formatXYN : fieldX (formatXYN g x y n) = x := by
  apply BitVec.eq_of_toNat_eq; rw [toNat_fieldX, toNat_formatXYN]
  have := x.isLt; have := y.isLt; have := n.isLt; omega
@[simp] theorem fieldY_formatXYN : fieldY (formatXYN g x y n) = y := by
  apply BitVec.eq_of_toNat_eq; rw [toNat_fieldY, toNat_formatXYN]
  have := y.isLt; have := n.isLt; omega
@[simp] theorem fieldN_formatXYN : fieldN (formatXYN g x y n) = n := by
  apply BitVec.eq_of_toNat_eq; rw [toNat_fieldN, toNat_formatXYN]
  have := n.isLt; omega

end fields

/-! ### An opcode is its fields -/

theorem formatA_fields (op : Word) : formatA (fieldG op) (fieldNNN op) = op := by
  apply BitVec.eq_of_toNat_eq; rw [toNat_formatA, toNat_fieldG, toNat_fieldNNN]; omega
theorem formatXK_fields (op : Word) : formatXK (fieldG op) (fieldX op) (fieldKK op) = op := by
  apply BitVec.eq_of_toNat_eq; rw [toNat_formatXK, toNat_fieldG, toNat_fieldX, toNat_fieldKK]; omega
theorem formatXYN_fields (op : Word) : formatXYN (fieldG op) (fieldX op) (fieldY op) (fieldN op) = op := by
  apply BitVec.eq_of_toNat_eq; rw [toNat_formatXYN, toNat_fieldG, toNat_fieldX, toNat_fieldY, toNat_fieldN]; omega

/-- The bytes of an opcode form it again (R62). -/
theorem opcodeOfBytes_bytesOfOpcode (op : Word) : opcodeOfBytes (bytesOfOpcode op).1 (bytesOfOpcode op).2 = op := by
  apply BitVec.eq_of_toNat_eq
  have h : ((bytesOfOpcode op).1 ++ (bytesOfOpcode op).2 : Word).toNat =
      (bytesOfOpcode op).1.toNat * 256 + (bytesOfOpcode op).2.toNat := by
    rw [BitVec.toNat_append, ← Nat.shiftLeft_add_eq_or_of_lt (bytesOfOpcode op).2.isLt, Nat.shiftLeft_eq]
  unfold opcodeOfBytes
  rw [h]
  have := op.isLt
  simp only [bytesOfOpcode, BitVec.extractLsb'_toNat, Nat.shiftRight_eq_div_pow]
  omega

end Sys2Proof.Laws.Decode
end

