-- ==== Sys2Proof/Laws/PerInstr.lean ====
section
/-! SUPPORT. Per instruction: decoding the encoding of a well-formed instruction gives it back (`30_encoding.md` R93, R102),
one lemma per constructor of `Instr`. -/

namespace Sys2Proof.Laws.RoundTrip

/-- The round trip of one instruction, under both values of STRICT_5_9. -/
def Statement (i : Instr) : Prop := ∀ strict, i.wellFormed strict = true → decode strict (encode i) = .ok i

theorem cls : Statement .cls := by
  intro strict _; rfl

theorem ret : Statement .ret := by
  intro strict _; rfl

theorem sys (nnn : Addr) : Statement (.sys nnn) := by
  intro strict h
  simp only [Instr.wellFormed, Bool.and_eq_true, bne_iff_ne, ne_eq] at h
  simp [decode, encode, decodeGroup0, h.1, h.2]

theorem jp (nnn : Addr) : Statement (.jp nnn) := by
  intro strict _; simp [decode, encode]

theorem call (nnn : Addr) : Statement (.call nnn) := by
  intro strict _; simp [decode, encode]

theorem seImm (x : Reg) (kk : Byte) : Statement (.seImm x kk) := by
  intro strict _; simp [decode, encode]

theorem sneImm (x : Reg) (kk : Byte) : Statement (.sneImm x kk) := by
  intro strict _; simp [decode, encode]

theorem seReg (x y : Reg) (n : Nibble) : Statement (.seReg x y n) := by
  intro strict h
  cases strict <;> simp_all [decode, encode, checkLowNibble, Instr.wellFormed]

theorem ldImm (x : Reg) (kk : Byte) : Statement (.ldImm x kk) := by
  intro strict _; simp [decode, encode]

theorem addImm (x : Reg) (kk : Byte) : Statement (.addImm x kk) := by
  intro strict _; simp [decode, encode]

theorem ldReg (x y : Reg) : Statement (.ldReg x y) := by
  intro strict _; simp [decode, encode, decodeGroup8]

theorem orReg (x y : Reg) : Statement (.orReg x y) := by
  intro strict _; simp [decode, encode, decodeGroup8]

theorem andReg (x y : Reg) : Statement (.andReg x y) := by
  intro strict _; simp [decode, encode, decodeGroup8]

theorem xorReg (x y : Reg) : Statement (.xorReg x y) := by
  intro strict _; simp [decode, encode, decodeGroup8]

theorem addReg (x y : Reg) : Statement (.addReg x y) := by
  intro strict _; simp [decode, encode, decodeGroup8]

theorem sub (x y : Reg) : Statement (.sub x y) := by
  intro strict _; simp [decode, encode, decodeGroup8]

theorem shr (x y : Reg) : Statement (.shr x y) := by
  intro strict _; simp [decode, encode, decodeGroup8]

theorem subn (x y : Reg) : Statement (.subn x y) := by
  intro strict _; simp [decode, encode, decodeGroup8]

theorem shl (x y : Reg) : Statement (.shl x y) := by
  intro strict _; simp [decode, encode, decodeGroup8]

theorem sneReg (x y : Reg) (n : Nibble) : Statement (.sneReg x y n) := by
  intro strict h
  cases strict <;> simp_all [decode, encode, checkLowNibble, Instr.wellFormed]

theorem ldI (nnn : Addr) : Statement (.ldI nnn) := by
  intro strict _; simp [decode, encode]

theorem jpV0 (nnn : Addr) : Statement (.jpV0 nnn) := by
  intro strict _; simp [decode, encode]

theorem rnd (x : Reg) (kk : Byte) : Statement (.rnd x kk) := by
  intro strict _; simp [decode, encode]

theorem drw (x y : Reg) (n : Nibble) : Statement (.drw x y n) := by
  intro strict _; simp [decode, encode]

theorem skp (x : Reg) : Statement (.skp x) := by
  intro strict _; simp [decode, encode, decodeGroupE]

theorem sknp (x : Reg) : Statement (.sknp x) := by
  intro strict _; simp [decode, encode, decodeGroupE]

theorem ldVxDt (x : Reg) : Statement (.ldVxDt x) := by
  intro strict _; simp [decode, encode, decodeGroupF]

theorem ldVxK (x : Reg) : Statement (.ldVxK x) := by
  intro strict _; simp [decode, encode, decodeGroupF]

theorem ldDtVx (x : Reg) : Statement (.ldDtVx x) := by
  intro strict _; simp [decode, encode, decodeGroupF]

theorem ldStVx (x : Reg) : Statement (.ldStVx x) := by
  intro strict _; simp [decode, encode, decodeGroupF]

theorem addI (x : Reg) : Statement (.addI x) := by
  intro strict _; simp [decode, encode, decodeGroupF]

theorem ldF (x : Reg) : Statement (.ldF x) := by
  intro strict _; simp [decode, encode, decodeGroupF]

theorem ldB (x : Reg) : Statement (.ldB x) := by
  intro strict _; simp [decode, encode, decodeGroupF]

theorem ldStore (x : Reg) : Statement (.ldStore x) := by
  intro strict _; simp [decode, encode, decodeGroupF]

theorem ldLoad (x : Reg) : Statement (.ldLoad x) := by
  intro strict _; simp [decode, encode, decodeGroupF]

end Sys2Proof.Laws.RoundTrip
end

