-- ==== Sys2Proof/Laws/Exec.lean ====
section
/-! SUPPORT. Once for all instructions: every meaning answers a next state, and what none of them changes. -/

namespace Sys2Proof.Laws.Exec

open Sys2Proof.Machine Sys2Proof.Laws.Memory Sys2Proof.Laws.Ops Sys2Proof.Laws.IndexMemory

/-- `t` is `s` but for the state instructions write (R23): memory, V, I, pc, the stack, SP, FB, DT, ST, the reported
condition, and the random source's inputs. -/
def ExecFrame (s t : State) : Prop :=
  t = { s with
    mem := t.mem, V := t.V, I := t.I, pc := t.pc, stack := t.stack, SP := t.SP, FB := t.FB, DT := t.DT, ST := t.ST
    event := t.event, randomInputs := t.randomInputs, freeIndex := t.freeIndex }

theorem execFrame_bcd (s : State) (x : Reg) :
    (((s.memWriteIn (indexAddr s 0) (bcdDigit (s.getV x) 0)).memWriteIn
      (indexAddr s 1) (bcdDigit (s.getV x) 1)).memWriteIn
      (indexAddr s 2) (bcdDigit (s.getV x) 2)) =
    { s with mem := (((s.memWriteIn (indexAddr s 0) (bcdDigit (s.getV x) 0)).memWriteIn
      (indexAddr s 1) (bcdDigit (s.getV x) 1)).memWriteIn
      (indexAddr s 2) (bcdDigit (s.getV x) 2)).mem } := by
  rw [memWriteIn_frame (s := (s.memWriteIn _ _).memWriteIn _ _), memWriteIn_frame (s := s.memWriteIn _ _),
    memWriteIn_frame (s := s)]

/-- What each instruction may change (R23): `t` is `s` but for the fields named. -/
def InstrFrame (i : Instr) (s t : State) : Prop :=
  match i with
  | .cls => t = { s with pc := t.pc, FB := t.FB }
  | .drw _ _ _ => t = { s with pc := t.pc, FB := t.FB, V := t.V }
  | .ret => t = { s with pc := t.pc, SP := t.SP, event := t.event }
  | .call _ => t = { s with pc := t.pc, SP := t.SP, stack := t.stack, event := t.event }
  | .sys _ | .seReg _ _ _ | .sneReg _ _ _ => t = { s with pc := t.pc, event := t.event }
  | .jp _ | .jpV0 _ | .seImm _ _ | .sneImm _ _ | .skp _ | .sknp _ => t = { s with pc := t.pc }
  | .ldImm _ _ | .addImm _ _ | .ldReg _ _ | .orReg _ _ | .andReg _ _ | .xorReg _ _ | .addReg _ _ | .sub _ _ | .shr _ _
  | .subn _ _ | .shl _ _ | .ldVxDt _ | .ldVxK _ | .ldLoad _ => t = { s with pc := t.pc, V := t.V }
  | .rnd _ _ => t = { s with pc := t.pc, V := t.V, randomInputs := t.randomInputs, freeIndex := t.freeIndex }
  | .ldDtVx _ => t = { s with pc := t.pc, DT := t.DT }
  | .ldStVx _ => t = { s with pc := t.pc, ST := t.ST }
  | .ldI _ | .addI _ | .ldF _ => t = { s with pc := t.pc, I := t.I }
  | .ldB _ | .ldStore _ => t = { s with pc := t.pc, mem := t.mem }

/-- Every instruction completes, and changes no more than its frame names. -/
theorem exec_instrFrame (i : Instr) (s : State) : ∃ t, exec i s = .next t ∧ InstrFrame i s t := by
  cases i with
  | ret =>
    refine ⟨_, rfl, ?_⟩
    simp only [InstrFrame]
    split
    · split <;> rfl
    · rfl
  | call nnn =>
    refine ⟨_, rfl, ?_⟩
    simp only [InstrFrame]
    split <;> rfl
  | seReg x y n =>
    refine ⟨_, rfl, ?_⟩
    simp only [InstrFrame]
    split <;> rfl
  | sneReg x y n =>
    refine ⟨_, rfl, ?_⟩
    simp only [InstrFrame]
    split <;> rfl
  | orReg x y => refine ⟨_, rfl, ?_⟩; rw [logicVfPolicy_frame]; rfl
  | andReg x y => refine ⟨_, rfl, ?_⟩; rw [logicVfPolicy_frame]; rfl
  | xorReg x y => refine ⟨_, rfl, ?_⟩; rw [logicVfPolicy_frame]; rfl
  | rnd x kk => refine ⟨_, rfl, ?_⟩; rw [dropRandom_frame]; rfl
  | ldVxK x =>
    refine ⟨_, rfl, ?_⟩
    simp only [InstrFrame]
    split <;> rfl
  | ldB x => refine ⟨_, rfl, ?_⟩; rw [execFrame_bcd]; rfl
  | ldStore x => refine ⟨_, rfl, ?_⟩; rw [storeRegs_frame]; rfl
  | ldLoad x => refine ⟨_, rfl, ?_⟩; rw [loadRegs_frame]; rfl
  | _ => exact ⟨_, rfl, rfl⟩

theorem instrFrame_of_exec {i : Instr} {s t : State} (h : exec i s = .next t) : InstrFrame i s t := by
  obtain ⟨u, hu, hf⟩ := exec_instrFrame i s
  rw [hu, Host.Outcome.next.injEq] at h
  exact h ▸ hf

/-- The frame of all instructions together. -/
theorem exec_frame (i : Instr) (s : State) : ∃ t, exec i s = .next t ∧ ExecFrame s t := by
  obtain ⟨t, ht, hf⟩ := exec_instrFrame i s
  refine ⟨t, ht, ?_⟩
  cases i <;> (simp only [InstrFrame] at hf; rw [hf]; rfl)

theorem exec_next (i : Instr) (s : State) : ∃ t, exec i s = .next t :=
  let ⟨t, h, _⟩ := exec_frame i s; ⟨t, h⟩

theorem execFrame_of_exec {i : Instr} {s t : State} (h : exec i s = .next t) : ExecFrame s t := by
  obtain ⟨u, hu, hf⟩ := exec_frame i s
  rw [hu, Host.Outcome.next.injEq] at h
  exact h ▸ hf

end Sys2Proof.Laws.Exec
end

