-- ==== Sys2Proof/Laws/Cycle.lean ====
section
/-! SUPPORT. What a cycle and a step can do (`30_encoding.md` R104, `60_exceptions.md` R229): each completes, and the fields it
leaves alone. -/

namespace Sys2Proof.Laws.Cycle

open Sys2Proof.Machine Sys2Proof.Laws.Memory Sys2Proof.Laws.Ops Sys2Proof.Laws.Exec

@[simp] theorem andThen_next (s : State) (f : State → Host.Outcome State Fault Refusal) : andThen (.next s) f = f s := rfl

/-- A next state of a sequence comes from a next state of its first part. -/
theorem andThen_eq_next {o : Host.Outcome State Fault Refusal} {f : State → Host.Outcome State Fault Refusal} {t : State}
    (h : andThen o f = .next t) : ∃ u, o = .next u ∧ f u = .next t := by
  cases o with
  | next u => exact ⟨u, rfl, h⟩
  | fault r => simp [andThen] at h
  | refused r => simp [andThen] at h

/-- `t` is `s` but for the state a cycle writes: what instructions write, the key snapshot, the fault registers and the
log. -/
def CycleFrame (s t : State) : Prop :=
  t = { s with
    mem := t.mem, V := t.V, I := t.I, pc := t.pc, stack := t.stack, SP := t.SP, FB := t.FB, DT := t.DT, ST := t.ST
    key := t.key, lastPressed := t.lastPressed, faulted := t.faulted, faultPc := t.faultPc, log := t.log
    event := t.event, randomInputs := t.randomInputs, freeIndex := t.freeIndex }

/-- Every cycle completes, and keeps its frame. -/
theorem cycle_frame (k : Keys) (s : State) : ∃ t, cycle k s = .next t ∧ CycleFrame s t := by
  unfold cycle
  split
  · exact ⟨s, rfl, rfl⟩
  unfold fetchExecute
  split
  · exact ⟨_, rfl, rfl⟩
  unfold executeOpcode
  split
  · next i _ =>
    obtain ⟨t, ht, hf⟩ := exec_frame i (s.sampleInput k)
    refine ⟨_, by rw [ht]; rfl, ?_⟩
    rw [hf]; rfl
  · exact ⟨_, rfl, rfl⟩

theorem cycle_next (k : Keys) (s : State) : ∃ t, cycle k s = .next t :=
  let ⟨t, h, _⟩ := cycle_frame k s; ⟨t, h⟩

theorem cycleFrame_of_cycle {k : Keys} {s t : State} (h : cycle k s = .next t) : CycleFrame s t := by
  obtain ⟨u, hu, hf⟩ := cycle_frame k s
  rw [hu, Host.Outcome.next.injEq] at h
  exact h ▸ hf

/-! ### What a cycle is, by what it fetches -/

/-- A faulted core does nothing (R214). -/
theorem cycle_faulted {s : State} (h : s.faulted = true) (k : Keys) : cycle k s = .next s := by
  simp [cycle, h]

/-- A cycle that fetches an instruction executes it and appends the record (R104). -/
theorem cycle_decoded {s : State} {k : Keys} {i : Instr} (hf : s.faulted = false) (hp : s.pc.toNat ≤ 0xFFE)
    (hd : decode s.cfg.strict59 s.fetch = .ok i) :
    ∃ u, exec i (s.sampleInput k) = .next u ∧
      cycle k s = .next (u.appendRecord s.pc (some s.fetch) (recordKind i)) := by
  obtain ⟨u, hu⟩ := exec_next i (s.sampleInput k)
  refine ⟨u, hu, ?_⟩
  have hp' : ¬ (s.sampleInput k).pc.toNat > 0xFFE := by show ¬ s.pc.toNat > 0xFFE; omega
  have hd' : decode (s.sampleInput k).cfg.strict59 (s.sampleInput k).fetch = .ok i := hd
  simp only [cycle, hf, Bool.false_eq_true, if_false, fetchExecute, if_neg hp', executeOpcode, hd', hu]; rfl

/-- A cycle that fetches an undefined encoding outside group 0 (R100). -/
theorem cycle_undefined {s : State} {k : Keys} {e : DecodeReject} (hf : s.faulted = false) (hp : s.pc.toNat ≤ 0xFFE)
    (hd : decode s.cfg.strict59 s.fetch = .error e) :
    cycle k s = .next ((s.sampleInput k).undefinedEncoding.appendRecord s.pc (some s.fetch) .undefined) := by
  have hp' : ¬ (s.sampleInput k).pc.toNat > 0xFFE := by show ¬ s.pc.toNat > 0xFFE; omega
  have hd' : decode (s.sampleInput k).cfg.strict59 (s.sampleInput k).fetch = .error e := hd
  simp only [cycle, hf, Bool.false_eq_true, if_false, fetchExecute, if_neg hp', executeOpcode, hd']; rfl

/-- A cycle that cannot fetch (R105). -/
theorem cycle_fetchFault {s : State} {k : Keys} (hf : s.faulted = false) (hp : s.pc.toNat > 0xFFE) :
    cycle k s = .next ((s.sampleInput k).raiseFetchFault.appendRecord s.pc none .fetchFault) := by
  have hp' : (s.sampleInput k).pc.toNat > 0xFFE := hp
  simp only [cycle, hf, Bool.false_eq_true, if_false, fetchExecute, if_pos hp']; rfl

/-- A cycle with its key vector taken from the host's inputs: the frame, less those inputs. -/
theorem runCycle_frame (s : State) : ∃ t, runCycle s = .next t ∧
    t = { s with
      mem := t.mem, V := t.V, I := t.I, pc := t.pc, stack := t.stack, SP := t.SP, FB := t.FB, DT := t.DT, ST := t.ST
      key := t.key, lastPressed := t.lastPressed, faulted := t.faulted, faultPc := t.faultPc, log := t.log
      event := t.event, keyInputs := t.keyInputs, randomInputs := t.randomInputs, freeIndex := t.freeIndex } := by
  obtain ⟨t, ht, hf⟩ := cycle_frame s.nextKeys s.dropKeys
  refine ⟨t, ht, ?_⟩
  rw [hf, dropKeys_frame]

theorem runCycle_next (s : State) : ∃ t, runCycle s = .next t :=
  let ⟨t, h, _⟩ := runCycle_frame s; ⟨t, h⟩

/-- A step inside a frame runs a cycle, if one is to go, and then what the controller adds (R230). -/
theorem frameStep_succ (left : Nat) (s : State) :
    frameStep (left + 1) s = andThen (runCycle s) (fun t => .next (Safety.afterFrameCycle (left + 1) t)) := by
  cases left with
  | zero => rfl
  | succ k => simp [frameStep, Safety.afterFrameCycle]

/-- A step inside a Step request, likewise (R232). -/
theorem steppingStep_succ (left : Nat) (s : State) :
    steppingStep (left + 1) s = andThen (runCycle s) (fun t => .next (Safety.afterStepCycle (left + 1) t)) := by
  cases left with
  | zero => rfl
  | succ k => simp [steppingStep, Safety.afterStepCycle]

theorem frameStep_next (left : Nat) (s : State) : ∃ t, frameStep left s = .next t := by
  cases left with
  | zero => exact ⟨_, rfl⟩
  | succ k =>
    obtain ⟨t, ht⟩ := runCycle_next s
    exact ⟨_, by rw [frameStep_succ, ht]; rfl⟩

theorem steppingStep_next (left : Nat) (s : State) : ∃ t, steppingStep left s = .next t := by
  cases left with
  | zero => exact ⟨_, rfl⟩
  | succ k =>
    obtain ⟨t, ht⟩ := runCycle_next s
    exact ⟨_, by rw [steppingStep_succ, ht]; rfl⟩

theorem applyAction_next (a : HostAction) (s : State) : ∃ t, applyAction a s = .next t := by
  cases a with
  | frame =>
    simp only [applyAction]; split
    · exact frameStep_next _ _
    · exact ⟨_, rfl⟩
  | step count =>
    simp only [applyAction]; split
    · exact ⟨_, rfl⟩
    · exact steppingStep_next _ _
  | _ => exact ⟨_, rfl⟩

theorem boundaryStep_next (s : State) : ∃ t, boundaryStep s = .next t := by
  unfold boundaryStep; split
  · exact applyAction_next _ _
  · split
    · exact frameStep_next _ _
    · exact ⟨_, rfl⟩

/-- What a step of a block that is not closed is, by where the timing controller stands (R229). -/
theorem step_of_open {s : State} (h : s.closed = false) : step s =
    match s.phase with
    | .frame left => frameStep left s
    | .stepping left => steppingStep left s
    | .boundary => boundaryStep s := by
  unfold step machineStep
  rw [h]; rfl

/-- Only a block that is not closed has a next state (R242). -/
theorem open_of_next {s t : State} (h : step s = .next t) : s.closed = false := by
  cases hc : s.closed
  · rfl
  · simp [step, machineStep, hc] at h

/-- LoadProgram is a Reset, but for the memory it loads (R240). -/
theorem loadProgram_frame (s : State) (src : Option (List Byte)) :
    s.loadProgram src = { s.hostReset with mem := (s.loadProgram src).mem } := by
  unfold State.loadProgram; split <;> rfl

/-- Ticks change the timers, tone and the drawFrame count alone (R225). -/
theorem iterate_tick_frame (s : State) : ∀ k, State.tick^[k] s =
    { s with
      DT := (State.tick^[k] s).DT, ST := (State.tick^[k] s).ST, tone := (State.tick^[k] s).tone
      drawFrames := s.drawFrames + k }
  | 0 => rfl
  | k + 1 => by
    rw [Function.iterate_succ_apply', iterate_tick_frame s k]; rfl

/-- The timers and tone after ticks depend on the timers and tone before them alone. -/
theorem iterate_tick_congr {s u : State} (hd : u.DT = s.DT) (hs : u.ST = s.ST) (ht : u.tone = s.tone) : ∀ k,
    (State.tick^[k] u).DT = (State.tick^[k] s).DT ∧ (State.tick^[k] u).ST = (State.tick^[k] s).ST ∧
      (State.tick^[k] u).tone = (State.tick^[k] s).tone
  | 0 => ⟨hd, hs, ht⟩
  | k + 1 => by
    obtain ⟨h1, h2, -⟩ := iterate_tick_congr hd hs ht k
    simp only [Function.iterate_succ_apply', State.tick, h1, h2, and_self]

/-- The bookkeeping of one stepped cycle: it is counted, and the one that completes the interval ticks (R232). -/
theorem countStepped_counts {s : State} (hb : s.stepCount < s.cfg.stepTickInterval) :
    s.countStepped.stepCount = (s.stepCount + 1) % s.cfg.stepTickInterval ∧
    s.countStepped.DT = (State.tick^[(s.stepCount + 1) / s.cfg.stepTickInterval] s).DT ∧
    s.countStepped.ST = (State.tick^[(s.stepCount + 1) / s.cfg.stepTickInterval] s).ST ∧
    s.countStepped.tone = (State.tick^[(s.stepCount + 1) / s.cfg.stepTickInterval] s).tone ∧
    s.countStepped.drawFrames = s.drawFrames + (s.stepCount + 1) / s.cfg.stepTickInterval := by
  unfold State.countStepped
  split
  · next h => rw [← h, Nat.div_self (by omega), Nat.mod_self]; exact ⟨rfl, rfl, rfl, rfl, rfl⟩
  · rw [Nat.div_eq_of_lt (by omega), Nat.mod_eq_of_lt (by omega)]; exact ⟨rfl, rfl, rfl, rfl, rfl⟩

end Sys2Proof.Laws.Cycle
end

