-- ==== Sys2Proof/Tests/Slice0.lean ====
section
/-! SUPPORT. The model's own tests: the WellFormed smoke, every constructor's decoding from a word written out from the spec's
formats, single steps with the results `95_test_vectors.md` gives, and for each statement a state that meets its hypotheses. -/

namespace Sys2Proof.Tests

open Sys2Proof.Machine Sys2Proof.Safety

/-! ### Well-formed terms (R95, R99) -/

theorem test_wf_refuses_sys_at_cls : (Instr.sys 0x0E0#12).wellFormed false = false := by decide
theorem test_wf_refuses_sys_at_ret : (Instr.sys 0x0EE#12).wellFormed false = false := by decide
theorem test_wf_refuses_seReg_strict : (Instr.seReg 1#4 2#4 1#4).wellFormed true = false := by decide
theorem test_wf_refuses_sneReg_strict : (Instr.sneReg 1#4 2#4 15#4).wellFormed true = false := by decide
theorem test_wf_takes_low_nibble : (Instr.seReg 1#4 2#4 1#4).wellFormed false = true := by decide

/-! ### Decoding: words written out from R91's formats and the tables R94 to R98 -/

theorem test_decode_group0 : decode false 0b0000000011100000#16 = .ok .cls ∧ decode false 0b0000000011101110#16 = .ok .ret ∧
    decode false 0b0000000100100011#16 = .ok (.sys 0x123#12) ∧ decode false 0b0000000111100000#16 = .ok (.sys 0x1E0#12) := by
  decide

theorem test_decode_formatA : decode false 0b0001001101000101#16 = .ok (.jp 0x345#12) ∧
    decode false 0b0010001000010010#16 = .ok (.call 0x212#12) ∧ decode false 0b1010001100000000#16 = .ok (.ldI 0x300#12) ∧
    decode false 0b1011111111111111#16 = .ok (.jpV0 0xFFF#12) := by decide

theorem test_decode_formatXK : decode false 0b0011001100101010#16 = .ok (.seImm 3#4 0x2A#8) ∧
    decode false 0b0100001100101010#16 = .ok (.sneImm 3#4 0x2A#8) ∧ decode false 0b0110101000111100#16 = .ok (.ldImm 0xA#4 0x3C#8) ∧
    decode false 0b0111000111111111#16 = .ok (.addImm 1#4 0xFF#8) ∧ decode false 0b1100001100001111#16 = .ok (.rnd 3#4 0x0F#8) := by
  decide

theorem test_decode_group8 : decode false 0b1000000100100000#16 = .ok (.ldReg 1#4 2#4) ∧
    decode false 0b1000000100100001#16 = .ok (.orReg 1#4 2#4) ∧ decode false 0b1000000100100010#16 = .ok (.andReg 1#4 2#4) ∧
    decode false 0b1000000100100011#16 = .ok (.xorReg 1#4 2#4) ∧ decode false 0b1000000100100100#16 = .ok (.addReg 1#4 2#4) ∧
    decode false 0b1000000100100101#16 = .ok (.sub 1#4 2#4) ∧ decode false 0b1000000100100110#16 = .ok (.shr 1#4 2#4) ∧
    decode false 0b1000000100100111#16 = .ok (.subn 1#4 2#4) ∧ decode false 0b1000000100101110#16 = .ok (.shl 1#4 2#4) ∧
    decode false 0x8008#16 = .error .undefinedGroup8 ∧ decode false 0x800F#16 = .error .undefinedGroup8 := by decide

theorem test_decode_formatXY : decode false 0b0101000100100001#16 = .ok (.seReg 1#4 2#4 1#4) ∧
    decode false 0b1001000100100000#16 = .ok (.sneReg 1#4 2#4 0#4) ∧ decode false 0b1101000100000010#16 = .ok (.drw 1#4 0#4 2#4) ∧
    decode true 0x5121#16 = .error .strictLowNibble ∧ decode true 0x9121#16 = .error .strictLowNibble := by decide

theorem test_decode_groupE : decode false 0b1110011110011110#16 = .ok (.skp 7#4) ∧
    decode false 0b1110011110100001#16 = .ok (.sknp 7#4) ∧ decode false 0xE09F#16 = .error .undefinedGroupE ∧
    decode false 0xE0A0#16 = .error .undefinedGroupE := by decide

theorem test_decode_groupF : decode false 0b1111000100000111#16 = .ok (.ldVxDt 1#4) ∧
    decode false 0b1111010100001010#16 = .ok (.ldVxK 5#4) ∧ decode false 0b1111101000010101#16 = .ok (.ldDtVx 0xA#4) ∧
    decode false 0b1111001000011000#16 = .ok (.ldStVx 2#4) ∧ decode false 0b1111001000011110#16 = .ok (.addI 2#4) ∧
    decode false 0b1111101000101001#16 = .ok (.ldF 0xA#4) ∧ decode false 0b1111001100110011#16 = .ok (.ldB 3#4) ∧
    decode false 0b1111001001010101#16 = .ok (.ldStore 2#4) ∧ decode false 0b1111001001100101#16 = .ok (.ldLoad 2#4) ∧
    decode false 0xF056#16 = .error .undefinedGroupF := by decide

/-- R62: big-endian fetch of `12 34`; one byte is too few. -/
theorem test_decode_bytes : decodeBytes false [0x12#8, 0x34#8, 0xFF#8] = .ok (.jp 0x234#12, [0xFF#8]) ∧
    decodeBytes false [0x12#8] = .error .truncated := by decide

theorem test_decodeTableWord : decodeTableWord 16 0x8124 = some (.addReg 1#4 2#4) ∧ decodeTableWord 16 0x800F = none := by decide

/-! ### Single steps

`at300 op`: the power-on state with `op` at pc = 0x300 and no key pressed, the form of the spec's vectors. -/

/-- The default configuration with a log of four records. -/
def small : Config := { Config.default with logCapacity := 4 }

def at300 (op : Word) (c : Config := small) : State :=
  placeOpcode { State.powerOn c with pc := 0x300#16, keyInputs := [0#16] } op

/-- The same state with bytes stored from an address. -/
def withBytes (a : Nat) (b : List Byte) (s : State) : State := { s with mem := Memory.writeAll s.cfg a b s.mem }

/-- Whether an outcome is a next state with a property. -/
def nextHas (o : Host.Outcome State Fault Refusal) (p : State → Bool) : Bool :=
  match o with
  | .next t => p t
  | .fault _ => false
  | .refused _ => false

/-- The framebuffer with exactly these pixels set. -/
def lit (l : List (Nat × Nat)) : FrameBuffer := l.foldl (fun f p => togglePixel f p.1 p.2) (Vector.replicate 32 0)

theorem test_cls : nextHas (step { at300 0x00E0 with FB := lit [(0, 0), (63, 31)] }) (fun t => t.FB == lit [] && t.pc == 0x302) = true := by
  decide
theorem test_ret : nextHas (step { ((at300 0x00EE).push 0x204) with pc := 0x300 })
    (fun t => t.pc == 0x206 && t.SP == 0 && t.slot 0 == 0x204) = true := by decide
theorem test_ret_underflow_hold : nextHas (step (at300 0x00EE { small with retUnderflowPc := .hold }))
    (fun t => t.pc == 0x300 && t.SP == 0 && t.event.code == 1) = true := by decide
theorem test_sys : nextHas (step (at300 0x0123)) (fun t => t.pc == 0x300 && t.event.code == 3) = true := by decide
theorem test_jp : nextHas (step (at300 0x1345)) (fun t => t.pc == 0x345) = true := by decide
theorem test_call : nextHas (step (at300 0x2212)) (fun t => t.pc == 0x212 && t.SP == 1 && t.slot 0 == 0x300) = true := by decide
theorem test_call_overflow : nextHas (step { at300 0x2400 with SP := 16 })
    (fun t => t.pc == 0x302 && t.SP == 16 && t.event.code == 2) = true := by decide
theorem test_seImm : nextHas (step ((at300 0x332A).setV 3 0x2A)) (fun t => t.pc == 0x304) = true := by decide
theorem test_sneImm : nextHas (step ((at300 0x432A).setV 3 0x2B)) (fun t => t.pc == 0x304) = true := by decide
theorem test_seReg : nextHas (step (((at300 0x5121).setV 1 7).setV 2 7)) (fun t => t.pc == 0x304) = true := by decide
theorem test_seReg_strict : nextHas (step (((at300 0x5121 { small with strict59 := true }).setV 1 7).setV 2 7))
    (fun t => t.pc == 0x300 && t.event.code == 3) = true := by decide
theorem test_sneReg : nextHas (step (((at300 0x9120).setV 1 7).setV 2 8)) (fun t => t.pc == 0x304) = true := by decide
theorem test_jpV0 : nextHas (step ((at300 0xBFFF).setV 0 0xFF)) (fun t => t.pc == 0x10FE) = true := by decide
theorem test_ldImm : nextHas (step (at300 0x6A3C)) (fun t => t.getV 10 == 0x3C) = true := by decide
theorem test_addImm : nextHas (step (((at300 0x71FF).setV 1 2).setV 15 7)) (fun t => t.getV 1 == 1 && t.getV 15 == 7) = true := by
  decide
theorem test_ldReg : nextHas (step ((at300 0x8120).setV 2 0x55)) (fun t => t.getV 1 == 0x55 && t.getV 2 == 0x55) = true := by decide
theorem test_or : nextHas (step ((((at300 0x8121).setV 1 0xF0).setV 2 0x0F).setV 15 9))
    (fun t => t.getV 1 == 0xFF && t.getV 15 == 9) = true := by decide
theorem test_or_zero : nextHas (step (((at300 0x8F21 { small with logicVf := .zero }).setV 15 0xF0).setV 2 0x0F))
    (fun t => t.getV 15 == 0) = true := by decide
theorem test_and : nextHas (step (((at300 0x8122).setV 1 0xF0).setV 2 0x3C)) (fun t => t.getV 1 == 0x30) = true := by decide
theorem test_xor : nextHas (step ((at300 0x8113).setV 1 0xAB)) (fun t => t.getV 1 == 0) = true := by decide
theorem test_addReg : nextHas (step (((at300 0x8124).setV 1 0xFA).setV 2 0x0A))
    (fun t => t.getV 1 == 4 && t.getV 15 == 1 && t.pc == 0x302) = true := by decide
theorem test_addReg_vf : nextHas (step (((at300 0x8F14).setV 15 0xF0).setV 1 0x20)) (fun t => t.getV 15 == 1) = true := by decide
theorem test_sub_borrow : nextHas (step (((at300 0x8125).setV 1 3).setV 2 0x0A))
    (fun t => t.getV 1 == 0xF9 && t.getV 15 == 0) = true := by decide
theorem test_sub_equal : nextHas (step (((at300 0x8125).setV 1 5).setV 2 5)) (fun t => t.getV 1 == 0 && t.getV 15 == 0) = true := by
  decide
theorem test_shr : nextHas (step (((at300 0x8126).setV 1 3).setV 2 0xFF))
    (fun t => t.getV 1 == 1 && t.getV 15 == 1 && t.getV 2 == 0xFF) = true := by decide
theorem test_subn : nextHas (step (((at300 0x8127).setV 1 3).setV 2 0x0A)) (fun t => t.getV 1 == 7 && t.getV 15 == 1) = true := by
  decide
theorem test_shl : nextHas (step ((at300 0x810E).setV 1 0x81)) (fun t => t.getV 1 == 2 && t.getV 15 == 1) = true := by decide
theorem test_ldI : nextHas (step (at300 0xA300)) (fun t => t.I == 0x300) = true := by decide
theorem test_rnd : nextHas (step { at300 0xC30F with randomInputs := [0xAB#8] })
    (fun t => t.getV 3 == 0x0B && t.randomInputs == []) = true := by decide
theorem test_drw_clips : nextHas (step (withBytes 0x400 [0xFF, 0xFF] (((at300 0xD102).setV 1 60).setI 0x400)))
    (fun t => t.FB == lit [(60, 0), (61, 0), (62, 0), (63, 0), (60, 1), (61, 1), (62, 1), (63, 1)] && t.getV 15 == 0) = true := by decide
theorem test_drw_collision : nextHas
    (step (withBytes 0x400 [0x80] { (at300 0xD011).setI 0x400 with FB := lit [(0, 0)] }))
    (fun t => t.FB == lit [] && t.getV 15 == 1) = true := by decide
theorem test_skp : nextHas (step { (at300 0xE09E).setV 0 7 with keyInputs := [0x0080#16] }) (fun t => t.pc == 0x304) = true := by decide
theorem test_sknp_high_index : nextHas (step { (at300 0xE0A1).setV 0 0x17 with keyInputs := [0xFFFF#16] })
    (fun t => t.pc == 0x304) = true := by decide
theorem test_ldVxDt : nextHas (step { at300 0xF107 with DT := 0x3C }) (fun t => t.getV 1 == 0x3C && t.DT == 0x3C) = true := by decide
theorem test_ldVxK_two_keys : nextHas (step { at300 0xF50A with keyInputs := [0x0208#16] })
    (fun t => t.getV 5 == 3 && t.pc == 0x302) = true := by decide
theorem test_ldVxK_no_key : nextHas (step ((at300 0xF50A).setV 5 9)) (fun t => t.getV 5 == 9 && t.pc == 0x300) = true := by decide
theorem test_ldDtVx : nextHas (step ((at300 0xFA15).setV 10 0x3C)) (fun t => t.DT == 0x3C) = true := by decide
theorem test_ldStVx : nextHas (step ((at300 0xF218).setV 2 1)) (fun t => t.ST == 1 && !t.tone) = true := by decide
theorem test_addI_wraps : nextHas (step (((at300 0xF21E).setV 2 2).setI 0xFFFF)) (fun t => t.I == 1 && t.getV 15 == 0) = true := by
  decide
theorem test_ldF_unmasked : nextHas (step ((at300 0xF029).setV 0 0xFF)) (fun t => t.I == 0x04FB) = true := by decide
theorem test_ldB : nextHas (step (((at300 0xF333).setV 3 0xFE).setI 0x300))
    (fun t => t.readByte 0x300 == 2 && t.readByte 0x301 == 5 && t.readByte 0x302 == 4) = true := by decide
theorem test_ldB_top : nextHas (step (((at300 0xF333).setV 3 0x7B).setI 0xFFE))
    (fun t => t.readByte 0xFFE == 1 && t.readByte 0xFFF == 2) = true := by decide
theorem test_ldStore_font : nextHas (step ((((at300 0xF155).setV 0 0xAA).setV 1 0xBB).setI 0x04F))
    (fun t => t.readByte 0x04F == 0x80 && t.readByte 0x050 == 0xBB) = true := by decide
theorem test_ldLoad_top : nextHas
    (step (withBytes 0xFFF [0x42] (((((at300 0xF265).setV 0 9).setV 1 9).setV 2 9).setI 0xFFF)))
    (fun t => t.getV 0 == 0x42 && t.getV 1 == 9 && t.getV 2 == 9) = true := by decide

/-! ### Steps of the controller (`95_test_vectors.md` 2.7, 2.8) -/

theorem test_fetch_fault : nextHas (step { State.powerOn small with pc := 0x0FFF, keyInputs := [0] })
    (fun t => t.faulted && t.faultPc == 0x0FFF && t.log == [⟨0x0FFF, none, .fetchFault, .fetchFault⟩]) = true := by decide
theorem test_frame_of_no_cycles : nextHas (step { State.powerOn small with instrFreq := 0, DT := 5 })
    (fun t => t.DT == 4 && t.pc == 0x200 && t.phase == .boundary) = true := by decide
theorem test_step_tick : nextHas (step { at300 0x1300 with runState := .paused, hostActions := [.step 1], stepCount := 59, DT := 10 })
    (fun t => t.DT == 9 && t.stepCount == 0) = true := by decide
theorem test_load_too_long (n : Nat) (hn : n = 3585) : applyAction (.loadProgram (some (List.replicate n 1))) (State.powerOn small) =
    .next { State.powerOn small with hostResult := .loadError } := by
  have h : loadable (some (List.replicate n 1)) = none := if_pos (by rw [List.length_replicate]; show 3584 < n; omega)
  simp only [applyAction, State.loadProgram, loadResult, h]; rfl
theorem test_reset_keeps_controller : nextHas
    (step { at300 0x1300 with runState := .paused, instrFreq := 7, hostActions := [.reset] })
    (fun t => t.runState == .paused && t.instrFreq == 7 && t.pc == 0x200 && t.mem == []) = true := by decide
theorem test_withFetchWord_runs : nextHas (step (State.reset.withFetchWord 16 0x6A3C)) (fun t => t.getV 10 == 0x3C) = true := by decide

/-! ### Witnesses: for each statement with hypotheses, concrete states and operands that meet them, clause by clause -/

/-- The power-on state under `small`. -/
def fresh : State := State.powerOn small

/-- A state deep in a program: the stack full of calls from 0xFFE, one byte stored at the last address, a key pressed. -/
def deep : State :=
  { fresh with
    SP := 16, stack := Vector.replicate 16 0x0FFE, pc := 0x0FFE, mem := [(0xFFF, 0x12)], V := Vector.replicate 16 0xFF
    key := 0x0208, lastPressed := some 3, phase := .frame 1, stepCount := 59 }

/-- A faulted state. -/
def stuck : State := { fresh with pc := 0x10FE, faulted := true, faultPc := 0x10FE }

theorem inv_deep : Inv deep where
  config := by decide
  stackPointer := by unfold stackPointerInRange; decide
  returnAddresses := by unfold returnAddressesFetched; decide
  pc := by unfold pcBounded; decide
  memory := by unfold memoryCanonical; decide
  font := by unfold fontIntact; decide
  log := by unfold logBounded; decide
  logEvents := by unfold logOfCycles; decide
  stepCount := by unfold stepCountBounded; decide
  snapshot := ⟨by decide, by decide⟩
  fault := by unfold faultConsistent; decide
  phase := ⟨rfl, by decide⟩

theorem witness_DecodeOfEncode : (Instr.drw 15#4 15#4 15#4).wellFormed true = true ∧
    (Instr.seReg 0#4 15#4 15#4).wellFormed false = true ∧ (Instr.sys 0x0E1#12).wellFormed true = true := by decide

theorem witness_EncodeOfDecode : decode true 0x8127#16 = .ok (.subn 1#4 2#4) ∧ decode false 0x912F#16 = .ok (.sneReg 1#4 2#4 15#4) := by
  decide

theorem witness_UndefinedEncodings : undefinedEncoding fresh.cfg.strict59 0x00EF#16 ∧ undefinedEncoding fresh.cfg.strict59 0x812F#16 ∧
    undefinedEncoding fresh.cfg.strict59 0xE09F#16 ∧ undefinedEncoding fresh.cfg.strict59 0xFFFF#16 ∧ undefinedEncoding true 0x5121#16 ∧
    ¬ undefinedEncoding fresh.cfg.strict59 0x00EE#16 ∧ ¬ undefinedEncoding false 0x912F#16 ∧ ¬ undefinedEncoding true 0x9120#16 := by
  unfold undefinedEncoding
  refine ⟨?_, ?_, ?_, ?_, ?_, ?_, ?_, ?_⟩ <;> decide

/-- R250's font, the first byte above it, the last of memory; the last slot; the last pixel. -/
theorem witness_ResetSetsEveryElement : (79 < 80) ∧ (80 ≤ 80 ∧ 80 < memSize) ∧ (80 ≤ 4095 ∧ 4095 < memSize) ∧ 15 < 16 ∧
    (63 < 64 ∧ 31 < 32) := by decide

theorem witness_LoadProgramEffect : ([] : List Byte).length ≤ 3584 ∧ (List.replicate 3584 (0 : Byte)).length ≤ 3584 ∧
    (List.replicate 3585 (0 : Byte)).length > 3584 ∧ (0 < [(7 : Byte)].length) ∧
    (0x1FF < 0x200 ∨ 0x200 + [(7 : Byte)].length ≤ 0x1FF) ∧ (0x201 < 0x200 ∨ 0x200 + [(7 : Byte)].length ≤ 0x201) := by
  simp only [List.length_replicate, List.length_nil, List.length_singleton]; omega

/-- The last fetchable address, in a frame, at a boundary and in a Step. -/
def lastFetch (p : Phase) : State := placeOpcode { fresh with pc := 0x0FFE, phase := p, instrFreq := 3 } 0x6A3C

theorem witness_StepRunsDecodedInstruction : ∀ p ∈ [Phase.frame 1, Phase.boundary, Phase.stepping 2],
    (lastFetch p).closed = false ∧ (lastFetch p).faulted = false ∧ (lastFetch p).pc.toNat ≤ 0xFFE ∧
    decode (lastFetch p).cfg.strict59 (lastFetch p).fetch = .ok (.ldImm 10#4 0x3C#8) ∧ (lastFetch p).phase = p ∧
    (lastFetch p).hostActions = [] ∧ (lastFetch p).runState = .running ∧ (lastFetch p).instrFreq = 3 := by decide

theorem witness_StepCompletesUnlessClosed : fresh.closed = false ∧ fresh.close.closed = true := by decide

theorem witness_FetchFaultCycle : { fresh with pc := 0x0FFF }.faulted = false ∧ ({ fresh with pc := 0x0FFF } : State).pc.toNat > 0xFFE := by
  decide

/-- Also with stepCount at the end of its range. -/
theorem witness_FaultedBlockOnlyTicks : stuck.faulted = true ∧ stuck.cfg.wf ∧ stepCountBounded stuck ∧
    ({ stuck with stepCount := 59 } : State).faulted = true ∧ stepCountBounded { stuck with stepCount := 59 } := by
  unfold stepCountBounded; decide

theorem witness_FaultIsSticky : (∃ t, step stuck = .next t ∧ stuck.faulted = true) ∧
    (∃ t, step { stuck with hostActions := [.reset] } = .next t) ∧
    (∃ t, step { stuck with hostActions := [.loadProgram none] } = .next t) :=
  ⟨⟨_, rfl, rfl⟩, ⟨_, rfl⟩, ⟨_, rfl⟩⟩

/-- Keys 3 and 9: the lowest is 3; and no key. -/
theorem witness_CycleTakesKeySnapshot : fresh.faulted = false ∧ lowestKey 0x0208 = some 3 ∧ lowestKey 0x8000 = some 15 ∧
    lowestKey 0 = none := by decide

/-- A fetch fault, an undefined encoding, SYS, and an instruction at the last address. -/
theorem witness_CycleLogsOneRecord : fresh.faulted = false ∧ ({ fresh with pc := 0x0FFF } : State).pc.toNat > 0xFFE ∧
    decode false (at300 0x800F).fetch = .error .undefinedGroup8 ∧ decode false (at300 0x0123).fetch = .ok (.sys 0x123#12) ∧
    decode false (lastFetch .boundary).fetch = .ok (.ldImm 10#4 0x3C#8) ∧ (lastFetch .boundary).pc.toNat ≤ 0xFFE := by decide

theorem witness_LogIsRing : (1 ≤ 1 ∧ ([] : List LogRecord).length < 1) ∧
    (1 ≤ 1 ∧ [(⟨0, none, .fetchFault, .fetchFault⟩ : LogRecord)].length = 1) := by decide

theorem witness_RegisterSkips : fresh.cfg.strict59 = false ∧ { small with strict59 := true }.strict59 = true ∧ (15#4 ≠ 0#4) := by decide

theorem witness_CallEffect : ({ fresh with SP := 15 } : State).SP < 16 ∧ deep.SP ≥ 16 := by decide

theorem witness_RetEffect : (1 ≤ ({ fresh with SP := 1 } : State).SP ∧ ({ fresh with SP := 1 } : State).SP ≤ 16) ∧
    (1 ≤ deep.SP ∧ deep.SP ≤ 16) ∧ (fresh.SP = 0 ∧ fresh.cfg.retUnderflowPc = .advance) ∧
    ((State.powerOn { small with retUnderflowPc := .hold }).SP = 0 ∧ { small with retUnderflowPc := .hold }.retUnderflowPc = .hold) := by
  decide

/-- Between the CALL and its RET: pc and a register have changed. -/
theorem witness_CallThenReturn : fresh.SP < 16 ∧ ∃ t, exec (.call 0x212#12) fresh = .next t ∧
    ((t.setV 0 7).setPc 0x214).SP = t.SP ∧ ((t.setV 0 7).setPc 0x214).slot fresh.SP = t.slot fresh.SP :=
  ⟨by decide, _, rfl, rfl, rfl⟩

theorem witness_OnlyCallAndRetWriteSP : (∃ t, exec .ret deep = .next t ∧ t.SP ≠ deep.SP ∧ deep.SP ≤ 16) ∧
    ∃ t, exec (.call 0#12) { deep with SP := 15 } = .next t ∧ t.SP ≠ 15 :=
  ⟨⟨_, rfl, by decide, by decide⟩, _, rfl, by decide⟩

theorem witness_PcChangesInFourWays : ∃ t, exec (.jpV0 0xFFF#12) deep = .next t ∧ t.pc.toNat = 0x10FE := ⟨_, rfl, by decide⟩

theorem witness_RandomMasked : ({ fresh with randomInputs := [0xAB] } : State).randomInputs = 0xAB :: [] ∧ fresh.randomInputs = [] ∧
    (0x0F#8).getLsbD 4 = false := by decide

theorem witness_VfWriters : (∃ t, exec (.addReg 1#4 2#4) (((fresh).setV 1 0xFA).setV 2 0x0A) = .next t ∧ t.getV vf ≠ 0) ∧
    ∃ t, exec (.ldImm 15#4 3#8) fresh = .next t ∧ t.getV vf ≠ fresh.getV vf :=
  ⟨⟨_, rfl, by decide⟩, _, rfl, by decide⟩

/-- The last byte of the last glyph, in a block with an LD F V0 loaded at pc. -/
theorem witness_FontPointerReadsGlyph : (∀ a, a < fontSize → ((at300 0xF029).setV 0 15).readByte a = small.resetByte a) ∧
    decode false ((at300 0xF029).setV 0 15).fetch = .ok (.ldF 0#4) ∧ (((at300 0xF029).setV 0 15).getV 0).toNat < 16 ∧ 4 < 5 ∧
    ∃ t, exec (.ldF 0#4) ((at300 0xF029).setV 0 15) = .next t := ⟨by decide, by decide, by decide, by decide, _, rfl⟩

/-- Stores that reach the last byte of memory, and one to the last byte of a protected font. -/
theorem witness_BcdStore : (fresh.setI 0xFFD).mem.wf fresh.cfg ∧
    (∀ j, j < 3 → inMem (indexAddr (fresh.setI 0xFFD) j) ∧ writable fresh.cfg (indexAddr (fresh.setI 0xFFD) j)) ∧
    ¬ inMem (indexAddr (fresh.setI 0xFFE) 2) ∧ ¬ writable fresh.cfg (indexAddr (fresh.setI 0x04F) 0) ∧
    writable fresh.cfg (indexAddr (fresh.setI 0x04F) 1) := by decide

theorem witness_BlockStore : deep.mem.wf deep.cfg ∧ (15#4 : Reg).toNat ≤ (15#4 : Reg).toNat ∧
    inMem (indexAddr (deep.setI 0xFF0) 15) ∧ writable deep.cfg (indexAddr (deep.setI 0xFF0) 15) ∧
    ¬ inMem (indexAddr (deep.setI 0xFF1) 15) ∧ ¬ writable deep.cfg (indexAddr (deep.setI 0x040) 15) := by decide

theorem witness_StoreThenLoadRestores : ∃ t u w, exec (.ldStore 2#4) (deep.setI 0xFFD) = .next t ∧
    u = (t.setV 0 0).setV 1 0 ∧ u.mem = t.mem ∧ u.cfg = t.cfg ∧ u.I = t.I ∧ exec (.ldLoad 2#4) u = .next w ∧
    (deep.setI 0xFFD).mem.wf deep.cfg ∧
    ∀ k, k ≤ 2 → inMem (indexAddr (deep.setI 0xFFD) k) ∧ writable deep.cfg (indexAddr (deep.setI 0xFFD) k) :=
  ⟨_, _, _, rfl, rfl, rfl, rfl, rfl, rfl, by decide, by decide⟩

theorem witness_MemoryWriters : deep.mem.wf deep.cfg ∧ ∃ t, exec (.ldStore 1#4) (deep.setI 0xFFF) = .next t ∧
    t.readByte 0xFFF ≠ deep.readByte 0xFFF := ⟨by decide, _, rfl, by decide⟩

/-- V0, V1 stored at pc + 2 with the last fetchable word there. -/
theorem witness_StoreSeenByNextFetch : (({ fresh with pc := 0x0FFC } : State).setI 0xFFE).mem.wf fresh.cfg ∧
    (∃ t, exec (.ldStore 1#4) (({ fresh with pc := 0x0FFC } : State).setI 0xFFE) = .next t) ∧ 0xFFC + 3 < memSize ∧
    (0#4 : Reg).toNat < (1#4 : Reg).toNat ∧ (1#4 : Reg).toNat = (0#4 : Reg).toNat + 1 ∧
    indexAddr (({ fresh with pc := 0x0FFC } : State).setI 0xFFE) 0 = 0xFFC + 2 ∧
    writable fresh.cfg (0xFFC + 2) ∧ writable fresh.cfg (0xFFC + 3) :=
  ⟨by decide, ⟨_, rfl⟩, by decide, by decide, by decide, by decide, by decide, by decide⟩

theorem witness_ClearDisplay : 63 < 64 ∧ 31 < 32 := by decide

/-- Glyph 0 at the last column and row: its first row's bit 7 covers (63, 31), and nothing wraps to (0, 0). -/
theorem witness_DrawSpritePixels : spriteCovers ((fresh.setV 0 63).setV 1 31) 0#4 1#4 5#4 63 31 ∧
    ¬ spriteCovers ((fresh.setV 0 63).setV 1 31) 0#4 1#4 5#4 0 0 := by unfold spriteCovers; decide

theorem witness_DrawTwiceRestores : ∃ t w, exec (.drw 0#4 1#4 5#4) fresh = .next t ∧ exec (.drw 0#4 1#4 5#4) t = .next w ∧
    t.FB ≠ fresh.FB ∧ t.getV 0 = fresh.getV 0 ∧ t.getV 1 = fresh.getV 1 ∧ t.I = fresh.I ∧ ∀ a, t.readByte a = fresh.readByte a :=
  ⟨_, _, rfl, rfl, by decide, by decide, by decide, rfl, fun _ => rfl⟩

theorem witness_OnlyClsAndDrwWriteFB : ∃ t, exec (.drw 0#4 1#4 5#4) fresh = .next t ∧ t.FB ≠ fresh.FB := ⟨_, rfl, by decide⟩

theorem witness_KeyWaitInstruction : fresh.lastPressed = none ∧ ({ fresh with lastPressed := some 15 } : State).lastPressed = some 15 := by
  decide

theorem witness_KeyWaitHoldsUntilKey : (at300 0xF50A).faulted = false ∧ (at300 0xF50A).pc.toNat ≤ 0xFFE ∧
    (at300 0xF50A).fetch = encode (.ldVxK 5#4) ∧ (0x0208 : Keys) ≠ 0 := by decide

theorem witness_SnapshotAndTimerReaders : (∃ t, exec (.ldVxDt 0#4) deep = .next t) ∧ (∃ t, exec (.ldStVx 0#4) deep = .next t) ∧
    ∃ t, exec (.skp 0#4) deep = .next t := ⟨⟨_, rfl⟩, ⟨_, rfl⟩, _, rfl⟩

theorem witness_InstructionsIgnoreController : ∃ t, exec (.rnd 0#4 0xFF#8) deep = .next t := ⟨_, rfl⟩

theorem witness_HostActions : fresh.runState = .running ∧ ({ fresh with runState := .paused } : State).runState = .paused ∧
    ({ fresh with runState := .paused } : State).phase = .boundary := by decide

theorem witness_HostActionsAtBoundaries : (∃ t, step deep = .next t ∧ deep.phase ≠ .boundary) ∧
    (∃ t, step { fresh with hostActions := [.frame, .pauseToggle] } = .next t ∧ fresh.phase = .boundary) ∧
    ∃ t, step { fresh with runState := .paused } = .next t :=
  ⟨⟨_, rfl, by decide⟩, ⟨_, rfl, rfl⟩, _, rfl⟩

theorem witness_ControllerRegisterWriters :
    (∃ t, step { fresh with hostActions := [.pauseToggle] } = .next t ∧ t.runState ≠ fresh.runState) ∧
    ∃ t, step { fresh with hostActions := [.setFrequency 7] } = .next t ∧ t.instrFreq ≠ fresh.instrFreq :=
  ⟨⟨_, rfl, by decide⟩, _, rfl, by decide⟩

theorem witness_StepsMakeFrame : fresh.closed = false ∧ fresh.phase = .boundary ∧ fresh.hostActions = [] ∧ fresh.runState = .running := by
  decide

theorem witness_StepsMakeStepRequest :
    ({ fresh with runState := .paused, hostActions := [.step 2, .frame] } : State).closed = false ∧
    ({ fresh with runState := .paused, hostActions := [.step 2, .frame] } : State).phase = .boundary ∧
    ({ fresh with runState := .paused, hostActions := [.step 2, .frame] } : State).hostActions = .step 2 :: [.frame] ∧
    ({ fresh with runState := .paused, hostActions := [.step 2, .frame] } : State).runState = .paused := by decide

theorem witness_SteppedCyclesTick : deep.cfg.wf ∧ stepCountBounded deep ∧ stepCountBounded fresh := by
  unfold stepCountBounded; decide

theorem witness_CycleTimerWriters : (∃ t, cycle 0 ((at300 0xFA15).setV 10 0x3C) = .next t ∧ t.DT ≠ 0) ∧
    ∃ t, cycle 0 ((at300 0xF218).setV 2 1) = .next t ∧ t.ST ≠ 0 := ⟨⟨_, rfl, by decide⟩, _, rfl, by decide⟩

theorem witness_StepKeepsInvariant : Inv deep ∧ ∃ t, step deep = .next t := ⟨inv_deep, _, rfl⟩

theorem witness_PowerOnMeetsInvariant : Config.wf small ∧ Config.wf { small with logCapacity := 1, stepTickInterval := 1 } := by decide

theorem witness_PcNeverWraps : Inv deep ∧ deep.pc.toNat ≤ 0xFFE ∧ ∃ t, exec (.jpV0 0xFFF#12) deep = .next t :=
  ⟨inv_deep, by decide, _, rfl⟩

end Sys2Proof.Tests
end

section
/-! PROOFS of the statements about the state (`10_state.md`): what a cycle and a step can do, who writes and who reads which
element, and the invariant of the machine. -/

namespace Sys2Proof.Proofs

open Sys2Proof.Machine Sys2Proof.Safety
open Sys2Proof.Laws.Memory Sys2Proof.Laws.Ops Sys2Proof.Laws.IndexMemory Sys2Proof.Laws.Display
open Sys2Proof.Laws.Exec Sys2Proof.Laws.Cycle

variable {i : Instr} {s t : State}

/-! ### What a cycle can do -/

/-- The four cycles: of a faulted core, of a core that cannot fetch, on an undefined encoding, and on an instruction. -/
inductive CycleCase (k : Keys) (s t : State) : Prop
  | faulted (hf : s.faulted = true) (ht : t = s)
  | fetchFault (hf : s.faulted = false) (hpc : s.pc.toNat > 0xFFE)
      (ht : t = (s.sampleInput k).raiseFetchFault.appendRecord s.pc none .fetchFault)
  | undefined (e : DecodeReject) (hf : s.faulted = false) (hpc : s.pc.toNat ≤ 0xFFE)
      (hd : decode s.cfg.strict59 s.fetch = .error e)
      (ht : t = ((s.sampleInput k).report .undefinedOpcode).appendRecord s.pc (some s.fetch) .undefined)
  | executed (i : Instr) (u : State) (hf : s.faulted = false) (hpc : s.pc.toNat ≤ 0xFFE)
      (hd : decode s.cfg.strict59 s.fetch = .ok i) (hu : exec i (s.sampleInput k) = .next u)
      (ht : t = u.appendRecord s.pc (some s.fetch) (recordKind i))

theorem cycleCase_of_cycle {k : Keys} (h : cycle k s = .next t) : CycleCase k s t := by
  cases hf : s.faulted with
  | true =>
    rw [cycle_faulted hf] at h
    exact .faulted hf (Host.Outcome.next.inj h).symm
  | false =>
    by_cases hpc : s.pc.toNat > 0xFFE
    · rw [cycle_fetchFault hf hpc] at h
      exact .fetchFault hf hpc (Host.Outcome.next.inj h).symm
    · have hpc : s.pc.toNat ≤ 0xFFE := by omega
      cases hd : decode s.cfg.strict59 s.fetch with
      | error e =>
        rw [cycle_undefined hf hpc hd] at h
        exact .undefined e hf hpc hd (Host.Outcome.next.inj h).symm
      | ok i =>
        obtain ⟨u, hu, hc⟩ := cycle_decoded (k := k) hf hpc hd
        rw [hc] at h
        exact .executed i u hf hpc hd hu (Host.Outcome.next.inj h).symm

/-! ### What a step can do -/

/-- `s` with `r` left of the host's pending actions. -/
def withPending (s : State) (r : List HostAction) : State := { s with hostActions := r }

/-- The steps: the end of a frame without cycles, a cycle of a frame, nothing but the return to a boundary, a cycle of a Step
request, and the host's actions that run no cycle. `r` is what is left of the host's pending actions. -/
inductive StepCase (s t : State) : Prop
  | emptyFrame (r : List HostAction) (ht : t = (withPending s r).finishFrame.setPhase .boundary)
  | frameCycle (left : Nat) (r : List HostAction) (u : State)
      (hw : s.phase = .frame left ∨ s.phase = .boundary ∧ s.runState = .running)
      (hu : runCycle (withPending s r) = .next u) (ht : t = afterFrameCycle left u)
  | idle (r : List HostAction) (ht : t = (withPending s r).setPhase .boundary)
  | stepCycle (left : Nat) (r : List HostAction) (u : State)
      (hw : s.phase = .stepping left ∨ s.phase = .boundary ∧ s.runState = .paused)
      (hu : runCycle (withPending s r) = .next u) (ht : t = afterStepCycle left u)
  | pauseToggle (r : List HostAction) (hp : s.phase = .boundary) (hr : s.hostActions = .pauseToggle :: r)
      (ht : t = (withPending s r).pauseToggle)
  | setFrequency (n : Nat) (r : List HostAction) (hp : s.phase = .boundary) (hr : s.hostActions = .setFrequency n :: r)
      (ht : t = (withPending s r).setFrequency n)
  | loadProgram (src : Option (List Byte)) (r : List HostAction) (hp : s.phase = .boundary)
      (hr : s.hostActions = .loadProgram src :: r)
      (ht : t = { (withPending s r).loadProgram src with hostResult := loadResult src })
  | reset (r : List HostAction) (hp : s.phase = .boundary) (hr : s.hostActions = .reset :: r)
      (ht : t = (withPending s r).hostReset)
  | close (r : List HostAction) (ht : t = (withPending s r).close)
  | elapse (n : Nat) (r : List HostAction) (ht : t = (withPending s r).elapse n)

theorem stepCase_of_frameStep {left : Nat} {r : List HostAction}
    (hw : s.phase = .frame left ∨ s.phase = .boundary ∧ s.runState = .running)
    (h : frameStep left (withPending s r) = .next t) : StepCase s t := by
  cases left with
  | zero => exact .emptyFrame r (Host.Outcome.next.inj h).symm
  | succ left =>
    rw [frameStep_succ] at h
    obtain ⟨u, hu, ht⟩ := andThen_eq_next h
    exact .frameCycle (left + 1) r u hw hu (Host.Outcome.next.inj ht).symm

theorem stepCase_of_steppingStep {left : Nat} {r : List HostAction}
    (hw : s.phase = .stepping left ∨ s.phase = .boundary ∧ s.runState = .paused)
    (h : steppingStep left (withPending s r) = .next t) : StepCase s t := by
  cases left with
  | zero => exact .idle r (Host.Outcome.next.inj h).symm
  | succ left =>
    rw [steppingStep_succ] at h
    obtain ⟨u, hu, ht⟩ := andThen_eq_next h
    exact .stepCycle (left + 1) r u hw hu (Host.Outcome.next.inj ht).symm

/-- At a boundary, an action that changes nothing is a return to the boundary. -/
theorem stepCase_of_unchanged {r : List HostAction} (hp : s.phase = .boundary) (ht : withPending s r = t) :
    StepCase s t :=
  .idle r (by rw [← ht, State.setPhase, ← hp]; rfl)

theorem stepCase_of_applyAction {a : HostAction} {r : List HostAction} (hp : s.phase = .boundary)
    (hr : s.hostActions = a :: r) (h : applyAction a (withPending s r) = .next t) : StepCase s t := by
  cases a with
  | frame =>
    simp only [applyAction] at h
    split at h
    · exact stepCase_of_frameStep (.inr ⟨hp, ‹_›⟩) h
    · exact stepCase_of_unchanged hp (Host.Outcome.next.inj h)
  | step count =>
    simp only [applyAction] at h
    split at h
    · exact stepCase_of_unchanged hp (Host.Outcome.next.inj h)
    · exact stepCase_of_steppingStep (.inr ⟨hp, ‹_›⟩) h
  | pauseToggle => exact .pauseToggle r hp hr (Host.Outcome.next.inj h).symm
  | setFrequency n => exact .setFrequency n r hp hr (Host.Outcome.next.inj h).symm
  | loadProgram src => exact .loadProgram src r hp hr (Host.Outcome.next.inj h).symm
  | reset => exact .reset r hp hr (Host.Outcome.next.inj h).symm
  | close => exact .close r (Host.Outcome.next.inj h).symm
  | elapse n => exact .elapse n r (Host.Outcome.next.inj h).symm

theorem stepCase_of_step (h : step s = .next t) : StepCase s t := by
  rw [step_of_open (open_of_next h)] at h
  split at h
  · exact stepCase_of_frameStep (r := s.hostActions) (.inl ‹_›) h
  · exact stepCase_of_steppingStep (r := s.hostActions) (.inl ‹_›) h
  · next hp =>
    unfold boundaryStep at h
    split at h
    · exact stepCase_of_applyAction hp ‹_› h
    · split at h
      · exact stepCase_of_frameStep (r := s.hostActions) (.inr ⟨hp, ‹_›⟩) h
      · exact stepCase_of_unchanged (r := s.hostActions) hp (Host.Outcome.next.inj h)

/-! ### Fields that cycles and the controller's bookkeeping leave alone -/

/-- What the controller adds to a cycle of a frame (R230). -/
theorem afterFrameCycle_frame (left : Nat) (s : State) : afterFrameCycle left s =
    { s with
      DT := (afterFrameCycle left s).DT, ST := (afterFrameCycle left s).ST, tone := (afterFrameCycle left s).tone
      accum := (afterFrameCycle left s).accum, drawFrames := (afterFrameCycle left s).drawFrames
      phase := (afterFrameCycle left s).phase } := by
  unfold afterFrameCycle; split <;> rfl

theorem countStepped_frame (s : State) : s.countStepped =
    { s with
      DT := s.countStepped.DT, ST := s.countStepped.ST, tone := s.countStepped.tone
      stepCount := s.countStepped.stepCount, drawFrames := s.countStepped.drawFrames } := by
  unfold State.countStepped; split <;> rfl

/-- What the controller adds to a cycle of a Step request (R232). -/
theorem afterStepCycle_frame (left : Nat) (s : State) : afterStepCycle left s =
    { s with
      DT := (afterStepCycle left s).DT, ST := (afterStepCycle left s).ST, tone := (afterStepCycle left s).tone
      stepCount := (afterStepCycle left s).stepCount, drawFrames := (afterStepCycle left s).drawFrames
      phase := (afterStepCycle left s).phase } := by
  unfold afterStepCycle; split <;> (rw [countStepped_frame]; rfl)

theorem runCycle_faulted (h : s.faulted = true) : runCycle s = .next s.dropKeys :=
  cycle_faulted (by rw [dropKeys_frame]; exact h) _

theorem elapse_frame (s : State) (n : Nat) : s.elapse n = { s with accum := (s.elapse n).accum } := by
  unfold State.elapse; split <;> rfl

/-! ### The fault registers -/

/-- `t` has the fault registers and the pc of `s`. -/
def SameFault (s t : State) : Prop := t.faulted = s.faulted ∧ t.faultPc = s.faultPc ∧ t.pc = s.pc

/-- A faulted core runs no instruction (R214). -/
theorem sameFault_of_runCycle (hf : s.faulted = true) (h : runCycle s = .next t) : SameFault s t := by
  rw [runCycle_faulted hf] at h
  rw [← Host.Outcome.next.inj h, dropKeys_frame]; exact ⟨rfl, rfl, rfl⟩

theorem SameFault.afterFrameCycle (h : SameFault s t) (left : Nat) : SameFault s (afterFrameCycle left t) := by
  rw [afterFrameCycle_frame]; exact h

theorem SameFault.afterStepCycle (h : SameFault s t) (left : Nat) : SameFault s (afterStepCycle left t) := by
  rw [afterStepCycle_frame]; exact h

theorem sameFault_or_cleared (h : step s = .next t) (hf : s.faulted = true) : SameFault s t ∨
    (s.phase = .boundary ∧ ∃ r, s.hostActions = .reset :: r ∨ ∃ src, s.hostActions = .loadProgram src :: r) := by
  cases stepCase_of_step h with
  | emptyFrame r ht => exact .inl (ht ▸ ⟨rfl, rfl, rfl⟩)
  | idle r ht => exact .inl (ht ▸ ⟨rfl, rfl, rfl⟩)
  | frameCycle left r u hw hu ht =>
    exact .inl (ht ▸ (sameFault_of_runCycle (s := withPending s r) hf hu).afterFrameCycle left)
  | stepCycle left r u hw hu ht =>
    exact .inl (ht ▸ (sameFault_of_runCycle (s := withPending s r) hf hu).afterStepCycle left)
  | pauseToggle r hp hr ht => exact .inl (ht ▸ ⟨rfl, rfl, rfl⟩)
  | setFrequency n r hp hr ht => exact .inl (ht ▸ ⟨rfl, rfl, rfl⟩)
  | close r ht => exact .inl (ht ▸ ⟨rfl, rfl, rfl⟩)
  | elapse n r ht => exact .inl (by rw [ht, elapse_frame]; exact ⟨rfl, rfl, rfl⟩)
  | loadProgram src r hp hr ht => exact .inr ⟨hp, r, .inr ⟨src, hr⟩⟩
  | reset r hp hr ht => exact .inr ⟨hp, r, .inl hr⟩

/-- Settles O14, by what each step can do to the fault registers. -/
theorem faultIsSticky : Obligations.FaultIsSticky := fun _ _ h hf =>
  (sameFault_or_cleared h hf).imp_left fun ⟨hfault, hfaultPc, hpc⟩ => ⟨hfault.trans hf, hfaultPc, hpc⟩

/-! ### The controller's registers -/

/-- `t` has the controller's registers and the configuration of `s`. -/
def SameController (s t : State) : Prop :=
  t.cfg = s.cfg ∧ t.runState = s.runState ∧ t.instrFreq = s.instrFreq

theorem sameController_of_runCycle (h : runCycle s = .next t) : SameController s t := by
  obtain ⟨u, hu, hf⟩ := runCycle_frame s
  obtain rfl := Host.Outcome.next.inj (hu.symm.trans h)
  rw [hf]; exact ⟨rfl, rfl, rfl⟩

theorem SameController.afterFrameCycle (h : SameController s t) (left : Nat) : SameController s (afterFrameCycle left t) := by
  rw [afterFrameCycle_frame]; exact h

theorem SameController.afterStepCycle (h : SameController s t) (left : Nat) : SameController s (afterStepCycle left t) := by
  rw [afterStepCycle_frame]; exact h

theorem loadProgram_sameController (s : State) (src : Option (List Byte)) : SameController s (s.loadProgram src) := by
  rw [loadProgram_frame]; exact ⟨rfl, rfl, rfl⟩

/-- The writers of the controller's registers: the pause toggle and set frequency, taken from the host at a boundary. -/
theorem sameController_or_writer (h : step s = .next t) : SameController s t ∨
    (s.phase = .boundary ∧ ∃ r, s.hostActions = .pauseToggle :: r ∧ t = (withPending s r).pauseToggle) ∨
    (s.phase = .boundary ∧ ∃ n r, s.hostActions = .setFrequency n :: r ∧ t = (withPending s r).setFrequency n) := by
  cases stepCase_of_step h with
  | emptyFrame r ht => exact .inl (ht ▸ ⟨rfl, rfl, rfl⟩)
  | idle r ht => exact .inl (ht ▸ ⟨rfl, rfl, rfl⟩)
  | frameCycle left r u hw hu ht =>
    exact .inl (ht ▸ (sameController_of_runCycle (s := withPending s r) hu).afterFrameCycle left)
  | stepCycle left r u hw hu ht =>
    exact .inl (ht ▸ (sameController_of_runCycle (s := withPending s r) hu).afterStepCycle left)
  | loadProgram src r hp hr ht => exact .inl (ht ▸ loadProgram_sameController (withPending s r) src)
  | reset r hp hr ht => exact .inl (ht ▸ ⟨rfl, rfl, rfl⟩)
  | close r ht => exact .inl (ht ▸ ⟨rfl, rfl, rfl⟩)
  | elapse n r ht => exact .inl (by rw [ht, elapse_frame]; exact ⟨rfl, rfl, rfl⟩)
  | pauseToggle r hp hr ht => exact .inr (.inl ⟨hp, r, hr, ht⟩)
  | setFrequency n r hp hr ht => exact .inr (.inr ⟨hp, n, r, hr, ht⟩)

/-- Settles O53, by what each step can do to the controller's registers. -/
theorem controllerRegisterWriters : Obligations.ControllerRegisterWriters := by
  intro s t h
  rcases sameController_or_writer h with ⟨hc, hr, hi⟩ | ⟨hp, r, ha, rfl⟩ | ⟨hp, n, r, ha, rfl⟩
  · exact ⟨hc, fun hne => absurd hr hne, fun hne => absurd hi hne⟩
  · exact ⟨rfl, fun _ => ⟨hp, r, ha⟩, fun hne => absurd rfl hne⟩
  · exact ⟨rfl, fun hne => absurd rfl hne, fun _ => ⟨hp, r, ha⟩⟩

/-! ### The log -/

/-- Settles O17, by the two cases of appending to a ring. -/
theorem logIsRing : Obligations.LogIsRing := by
  intro cap l r hcap hl
  refine ⟨fun hlt => ?_, fun old rest hold hfull => ?_, ringAppend_length_le hcap l r⟩
  · rw [ringAppend_eq hcap hl, if_pos hlt]
  · rw [ringAppend_eq hcap hl, if_neg (by omega), hold, List.tail_cons]

/-! ### The key snapshot -/

theorem cycle_snapshot {k : Keys} (hf : s.faulted = false) (h : cycle k s = .next t) :
    t.key = k ∧ t.lastPressed = lowestKey k := by
  cases cycleCase_of_cycle h with
  | faulted hf' ht => simp [hf] at hf'
  | fetchFault _ hpc ht => exact ht ▸ ⟨rfl, rfl⟩
  | undefined e _ hpc hd ht => exact ht ▸ ⟨rfl, rfl⟩
  | executed i u _ hpc hd hu ht =>
    rw [ht, execFrame_of_exec hu]; exact ⟨rfl, rfl⟩

/-- Settles O15: nothing after step 1 of the cycle writes the snapshot or `lastPressed`. -/
theorem cycleTakesKeySnapshot : Obligations.CycleTakesKeySnapshot := by
  intro s k hf
  obtain ⟨t, ht⟩ := cycle_next k s
  obtain ⟨hkey, hlast⟩ := cycle_snapshot hf ht
  refine ⟨t, ht, hkey, ?_, fun j hj => lowestKey_some (hlast ▸ hj)⟩
  rw [hlast, lowestKey_eq_none_iff_zero]

/-! ### The timers -/

/-- ST after an instruction that finds `v` in it: LD ST, Vx writes it, every other one leaves it (R33). -/
def stAfter (i : Instr) (s : State) (v : Byte) : Byte :=
  match i with
  | .ldStVx x => s.getV x
  | _ => v

theorem stAfter_of_ne (hi : ∀ x, i ≠ .ldStVx x) (s : State) (v : Byte) : stAfter i s v = v := by
  unfold stAfter; split
  · exact absurd rfl (hi _)
  · rfl

theorem exec_ST (h : exec i s = .next t) : t.ST = stAfter i s s.ST := by
  have hf := instrFrame_of_exec h
  cases i with
  | ldStVx x => exact congrArg State.ST (Host.Outcome.next.inj h).symm
  | _ => simp only [InstrFrame] at hf; rw [hf]; rfl

theorem exec_DT_changed (h : exec i s = .next t) (hne : t.DT ≠ s.DT) : ∃ x, i = .ldDtVx x ∧ t.DT = s.getV x := by
  have hf := instrFrame_of_exec h
  cases i with
  | ldDtVx x => exact ⟨x, rfl, congrArg State.DT (Host.Outcome.next.inj h).symm⟩
  | _ => simp only [InstrFrame] at hf; rw [hf] at hne; exact absurd rfl hne

theorem exec_ST_changed (h : exec i s = .next t) (hne : t.ST ≠ s.ST) : ∃ x, i = .ldStVx x ∧ t.ST = s.getV x := by
  by_contra hi
  refine hne ((exec_ST h).trans (stAfter_of_ne (fun x hx => hi ⟨x, hx, ?_⟩) s _))
  rw [exec_ST h, hx, stAfter]

/-- Settles O57, by what each cycle can do: only an executed instruction can write a timer. -/
theorem cycleTimerWriters : Obligations.CycleTimerWriters := by
  intro s t k h
  refine ⟨by rw [cycleFrame_of_cycle h], ?_⟩
  cases cycleCase_of_cycle h with
  | faulted hf ht => exact ht ▸ ⟨fun hne => absurd rfl hne, fun hne => absurd rfl hne⟩
  | fetchFault hf hpc ht => exact ht ▸ ⟨fun hne => absurd rfl hne, fun hne => absurd rfl hne⟩
  | undefined e hf hpc hd ht => exact ht ▸ ⟨fun hne => absurd rfl hne, fun hne => absurd rfl hne⟩
  | executed i u hf hpc hd hu ht =>
    rw [hd, ht]
    refine ⟨fun hne => ?_, fun hne => ?_⟩
    · obtain ⟨x, rfl, hx⟩ := exec_DT_changed hu hne
      exact ⟨x, rfl, hx⟩
    · obtain ⟨x, rfl, hx⟩ := exec_ST_changed hu hne
      exact ⟨x, rfl, hx⟩

/-! ### What instructions do not read -/

/-- `s` with `v` in ST, and the key snapshot, `lastPressed` and the state outside the instructions' reach taken from `o`. -/
def withUnread (s o : State) (v : Byte) : State :=
  { withControllerOf s o with ST := v, key := o.key, lastPressed := o.lastPressed }

section withUnread
variable (s o : State) (v : Byte)

@[simp] theorem withUnread_cfg : (withUnread s o v).cfg = s.cfg := rfl
@[simp] theorem withUnread_SP : (withUnread s o v).SP = s.SP := rfl
@[simp] theorem withUnread_pc : (withUnread s o v).pc = s.pc := rfl
@[simp] theorem withUnread_randomInputs : (withUnread s o v).randomInputs = s.randomInputs := rfl
@[simp] theorem withUnread_key : (withUnread s o v).key = o.key := rfl
@[simp] theorem withUnread_lastPressed : (withUnread s o v).lastPressed = o.lastPressed := rfl
@[simp] theorem withUnread_getV (x : Reg) : (withUnread s o v).getV x = s.getV x := rfl
@[simp] theorem withUnread_slot (k : Nat) : (withUnread s o v).slot k = s.slot k := rfl
@[simp] theorem withUnread_setV (x : Reg) (b : Byte) : (withUnread s o v).setV x b = withUnread (s.setV x b) o v := rfl
@[simp] theorem withUnread_setPc (w : Word) : (withUnread s o v).setPc w = withUnread (s.setPc w) o v := rfl
@[simp] theorem withUnread_advance : (withUnread s o v).advance = withUnread s.advance o v := rfl
@[simp] theorem withUnread_skipIf (c : Bool) : (withUnread s o v).skipIf c = withUnread (s.skipIf c) o v := rfl
@[simp] theorem withUnread_push (w : Word) : (withUnread s o v).push w = withUnread (s.push w) o v := rfl
@[simp] theorem withUnread_pop : (withUnread s o v).pop = withUnread s.pop o v := rfl
@[simp] theorem withUnread_report (e : Condition) : (withUnread s o v).report e = withUnread (s.report e) o v := rfl

/-- The two outcomes of a test that reads neither ST, the snapshot nor the controller. -/
theorem withUnread_ite (c : Prop) [Decidable c] (s t o : State) (v : Byte) :
    (if c then withUnread s o v else withUnread t o v) = withUnread (if c then s else t) o v :=
  (apply_ite (withUnread · o v) c s t).symm

@[simp] theorem withUnread_logicVfPolicy : (withUnread s o v).logicVfPolicy = withUnread s.logicVfPolicy o v := by
  simp only [State.logicVfPolicy, withUnread_cfg]
  split <;> rfl

@[simp] theorem withUnread_dropRandom : (withUnread s o v).dropRandom = withUnread s.dropRandom o v := by
  simp only [State.dropRandom, withUnread_randomInputs]
  split <;> rfl

@[simp] theorem withUnread_memWriteIn (a : Nat) (b : Byte) :
    (withUnread s o v).memWriteIn a b = withUnread (s.memWriteIn a b) o v := by
  rw [memWriteIn_frame, memWriteIn_congr (u := withUnread s o v) (s := s) rfl rfl, memWriteIn_frame (s := s)]; rfl

@[simp] theorem withUnread_storeRegs (n k : Nat) : storeRegs n k (withUnread s o v) = withUnread (storeRegs n k s) o v := by
  rw [storeRegs_frame, storeRegs_congr n k (u := withUnread s o v) (s := s) rfl rfl rfl rfl, storeRegs_frame n k s]; rfl

@[simp] theorem withUnread_loadRegs (n k : Nat) : loadRegs n k (withUnread s o v) = withUnread (loadRegs n k s) o v := by
  rw [loadRegs_frame, loadRegs_congr n k (u := withUnread s o v) (s := s) rfl rfl rfl rfl, loadRegs_frame n k s]; rfl

@[simp] theorem withUnread_drawSprite (x y : Reg) (n : Nibble) : drawSprite (withUnread s o v) x y n = drawSprite s x y n :=
  drawSprite_congr (u := withUnread s o v) (s := s) rfl rfl rfl rfl rfl x y n

end withUnread

/-- An instruction does the same whatever ST, the controller's state, the snapshot and `lastPressed` hold, the last two unless it
reads them, and leaves them as they are but for LD ST, Vx (R33, R36, R37, R45). -/
theorem exec_withUnread {o : State} {v : Byte} (h : exec i s = .next t)
    (hkey : (∃ x, i = .skp x ∨ i = .sknp x) → o.key = s.key)
    (hlast : (∃ x, i = .ldVxK x) → o.lastPressed = s.lastPressed) :
    exec i (withUnread s o v) = .next (withUnread t o (stAfter i s v)) := by
  cases i with
  | ret =>
    obtain rfl := Host.Outcome.next.inj h
    cases hpc : s.cfg.retUnderflowPc <;> simp [exec, execRet, stAfter, hpc, withUnread_ite]
  | call nnn =>
    obtain rfl := Host.Outcome.next.inj h
    simp [exec, execCall, stAfter, withUnread_ite]
  | seReg x y n =>
    obtain rfl := Host.Outcome.next.inj h
    exact congrArg Host.Outcome.next
      (withUnread_ite (s.cfg.strict59 = true ∧ n ≠ 0#4) s.undefinedEncoding (s.skipIf (s.getV x == s.getV y)) o v)
  | sneReg x y n =>
    obtain rfl := Host.Outcome.next.inj h
    exact congrArg Host.Outcome.next
      (withUnread_ite (s.cfg.strict59 = true ∧ n ≠ 0#4) s.undefinedEncoding (s.skipIf (s.getV x != s.getV y)) o v)
  | ldVxK x =>
    obtain rfl := Host.Outcome.next.inj h
    cases hk : s.lastPressed <;> simp [exec, execLdVxK, stAfter, hlast ⟨x, rfl⟩, hk]
  | skp x | sknp x =>
    obtain rfl := Host.Outcome.next.inj h
    simp [exec, execSkp, execSknp, stAfter, keyPressed, hkey]
  | orReg x y | andReg x y | xorReg x y =>
    obtain rfl := Host.Outcome.next.inj h
    simp [exec, execOr, execAnd, execXor, stAfter]
  | rnd x kk =>
    obtain rfl := Host.Outcome.next.inj h
    simp only [exec, execRnd, withUnread_dropRandom]; rfl
  | drw x y n =>
    obtain rfl := Host.Outcome.next.inj h
    simp only [exec, execDrw, withUnread_drawSprite]; rfl
  | ldB x =>
    obtain rfl := Host.Outcome.next.inj h
    simp only [exec, execLdB, withUnread_memWriteIn]; rfl
  | ldStore x | ldLoad x =>
    obtain rfl := Host.Outcome.next.inj h
    simp [exec, execLdStore, execLdLoad, stAfter]
  | _ => obtain rfl := Host.Outcome.next.inj h; rfl

/-- Settles O49, by exchanging one of the three elements in turn. -/
theorem snapshotAndTimerReaders : Obligations.SnapshotAndTimerReaders := by
  intro i s t h
  have hf := execFrame_of_exec h
  have hST := exec_ST h
  refine ⟨fun v hi => ?_, fun v x hi => ?_, fun k hi => ?_, fun l hi => ?_⟩
  · have hex := exec_withUnread (o := s) (v := v) h (fun _ => rfl) (fun _ => rfl)
    rw [stAfter_of_ne hi] at hex
    refine hex.trans ?_
    rw [hf]; rfl
  · subst hi; exact h
  · have hex := exec_withUnread (o := { s with key := k }) (v := s.ST) h
      (fun ⟨x, hx⟩ => absurd hx (not_or.2 (hi x))) (fun _ => rfl)
    refine hex.trans ?_
    rw [← hST, hf]; rfl
  · have hex := exec_withUnread (o := { s with lastPressed := l }) (v := s.ST) h
      (fun _ => rfl) (fun ⟨x, hx⟩ => absurd hx (hi x))
    refine hex.trans ?_
    rw [← hST, hf]; rfl

/-- Settles O50, by exchanging the controller's state and keeping ST, the snapshot and `lastPressed`. -/
theorem instructionsIgnoreController : Obligations.InstructionsIgnoreController := by
  intro i s o t h
  have hf := execFrame_of_exec h
  refine ⟨?_, by rw [hf]; rfl, by rw [hf]⟩
  have hex := exec_withUnread (o := { o with key := s.key, lastPressed := s.lastPressed }) (v := s.ST) h
    (fun _ => rfl) (fun _ => rfl)
  refine hex.trans ?_
  rw [← exec_ST h, hf]; rfl

/-! ### pc -/

/-- The values pc can have after an instruction (R106): held, the next instruction, past a skipped one, the target of JP and
CALL, that of JP V0, and behind the CALL that RET goes back to. -/
inductive PcAfter (s : State) : Word → Prop
  | hold : PcAfter s s.pc
  | advance : PcAfter s (s.pc + 2)
  | skip : PcAfter s (s.pc + 4)
  | jump (nnn : Addr) : PcAfter s (addrOperand nnn)
  | jumpOffset (nnn : Addr) : PcAfter s (jumpOffsetTarget s nnn)
  | ret (hSP : s.SP ≠ 0) : PcAfter s (s.slot (s.SP - 1) + 2)

theorem pcAfter_skipIf (s : State) (c : Bool) : PcAfter s (s.skipIf c).pc := by
  cases c
  · exact .advance
  · exact .skip

theorem exec_pc (h : exec i s = .next t) : PcAfter s t.pc := by
  cases i with
  | ret =>
    obtain rfl := Host.Outcome.next.inj h
    split
    · split
      · exact .advance
      · exact .hold
    · exact .ret ‹_›
  | call nnn =>
    obtain rfl := Host.Outcome.next.inj h
    split
    · exact .advance
    · exact .jump nnn
  | sys nnn => obtain rfl := Host.Outcome.next.inj h; exact .hold
  | jp nnn => obtain rfl := Host.Outcome.next.inj h; exact .jump nnn
  | jpV0 nnn => obtain rfl := Host.Outcome.next.inj h; exact .jumpOffset nnn
  | seImm | sneImm | skp | sknp => obtain rfl := Host.Outcome.next.inj h; exact pcAfter_skipIf s _
  | seReg x y n | sneReg x y n =>
    obtain rfl := Host.Outcome.next.inj h
    split
    · exact .hold
    · exact pcAfter_skipIf s _
  | ldVxK x =>
    obtain rfl := Host.Outcome.next.inj h
    split
    · exact .hold
    · exact .advance
  | orReg | andReg | xorReg => obtain rfl := Host.Outcome.next.inj h; rw [logicVfPolicy_frame]; exact .advance
  | rnd x kk => obtain rfl := Host.Outcome.next.inj h; rw [dropRandom_frame]; exact .advance
  | ldB x => obtain rfl := Host.Outcome.next.inj h; rw [execFrame_bcd]; exact .advance
  | ldStore x => obtain rfl := Host.Outcome.next.inj h; rw [storeRegs_frame]; exact .advance
  | ldLoad x => obtain rfl := Host.Outcome.next.inj h; rw [loadRegs_frame]; exact .advance
  | _ => obtain rfl := Host.Outcome.next.inj h; exact .advance

theorem toNat_add_two {a : Word} (h : a.toNat ≤ 0xFFE) : (a + 2).toNat = a.toNat + 2 := by bv_omega
theorem toNat_add_four {a : Word} (h : a.toNat ≤ 0xFFE) : (a + 4).toNat = a.toNat + 4 := by bv_omega

/-- The largest of these values is that of JP V0, 0xFF + 0xFFF (R26). -/
theorem PcAfter.toNat_le {w : Word} (h : PcAfter s w) (hpc : s.pc.toNat ≤ 0xFFE) (hr : returnAddressesFetched s) :
    w.toNat ≤ 0x10FE := by
  cases h with
  | hold => omega
  | advance => have := toNat_add_two hpc; omega
  | skip => have := toNat_add_four hpc; omega
  | jump nnn => have := toNat_addrOperand nnn; omega
  | jumpOffset nnn =>
    have := toNat_jumpOffsetTarget (s := s) nnn
    have := (s.getV 0).isLt
    omega
  | ret hSP =>
    have hslot := hr (s.SP - 1) (by omega)
    have := toNat_add_two hslot
    omega

/-- Settles O60, by the values that an instruction can leave in pc. -/
theorem pcNeverWraps : Obligations.PcNeverWraps := fun _ _ _ hI hpc h =>
  ⟨(exec_pc h).toNat_le hpc hI.returnAddresses, toNat_add_two hpc, toNat_add_four hpc⟩

/-! ### The call stack -/

theorem returnAddressesFetched_push (hr : returnAddressesFetched s) (hSP : s.SP < 16) {v : Word} (hv : v.toNat ≤ 0xFFE) :
    returnAddressesFetched (s.push v) := by
  intro k hk
  rw [slot_push hSP]
  split
  · exact hv
  · exact hr k (by simp at hk; omega)

theorem exec_keeps_stack (h : exec i s = .next t) (hpc : s.pc.toNat ≤ 0xFFE) (hSP : stackPointerInRange s)
    (hr : returnAddressesFetched s) : stackPointerInRange t ∧ returnAddressesFetched t := by
  have hf := instrFrame_of_exec h
  cases i with
  | call nnn =>
    obtain rfl := Host.Outcome.next.inj h
    split
    · exact ⟨hSP, hr⟩
    · next hlt =>
      have hlt : s.SP < 16 := by omega
      exact ⟨hlt, returnAddressesFetched_push hr hlt hpc⟩
  | ret =>
    obtain rfl := Host.Outcome.next.inj h
    split
    · split <;> exact ⟨hSP, hr⟩
    · exact ⟨(Nat.sub_le _ _).trans hSP, fun k hk => hr k (hk.trans_le (Nat.sub_le _ _))⟩
  | _ => simp only [InstrFrame] at hf; rw [hf]; exact ⟨hSP, hr⟩

/-! ### Memory -/

/-- The two facts of the invariant about memory. The second needs the first: reads after a store rest on the canonical form. -/
def MemoryOk (s : State) : Prop := memoryCanonical s ∧ fontIntact s

/-- A byte that FONT_WRITE protects is not writable. -/
theorem not_writable_font {c : Config} {a : Nat} (hc : c.fontWrite = .ignore) (ha : a < fontSize) : ¬ writable c a :=
  fun hw => hw ⟨ha, hc⟩

theorem memoryOk_memWriteIn (h : MemoryOk s) (a : Nat) (v : Byte) : MemoryOk (s.memWriteIn a v) := by
  obtain ⟨hm, hfont⟩ := h
  refine ⟨?_, fun hc b hb => ?_⟩
  · unfold memoryCanonical
    rw [memWriteIn_cfg]
    exact memWriteIn_wf hm a v
  · rw [memWriteIn_cfg] at hc ⊢
    rw [readByte_memWriteIn hm.1, if_neg, hfont hc b hb]
    rintro ⟨rfl, -, hw⟩
    exact not_writable_font hc hb hw

theorem memoryOk_storeRegs (h : MemoryOk s) (n k : Nat) : MemoryOk (storeRegs n k s) := by
  obtain ⟨hm, hfont⟩ := h
  have hcfg : (storeRegs n k s).cfg = s.cfg := by rw [storeRegs_frame]
  refine ⟨?_, fun hc b hb => ?_⟩
  · unfold memoryCanonical
    rw [hcfg]
    exact storeRegs_wf n k s hm
  · rw [hcfg] at hc ⊢
    rw [readByte_storeRegs n k s hm.1, if_neg, hfont hc b hb]
    rintro ⟨-, -, -, hw⟩
    exact not_writable_font hc hb hw

theorem exec_keeps_memory (h : exec i s = .next t) (hm : MemoryOk s) : MemoryOk t := by
  have hf := instrFrame_of_exec h
  cases i with
  | ldB x =>
    obtain rfl := Host.Outcome.next.inj h
    exact memoryOk_memWriteIn (memoryOk_memWriteIn (memoryOk_memWriteIn hm _ _) _ _) _ _
  | ldStore x =>
    obtain rfl := Host.Outcome.next.inj h
    exact memoryOk_storeRegs hm _ _
  | _ => simp only [InstrFrame] at hf; rw [hf]; exact hm

theorem length_of_loadable {src : Option (List Byte)} {b : List Byte} (h : loadable src = some b) : b.length ≤ progMax := by
  unfold loadable at h
  split at h
  · cases h
  · split at h
    · cases h
    · obtain rfl := Option.some.inj h
      omega

theorem memoryOk_hostReset (s : State) : MemoryOk s.hostReset := ⟨nil_wf _, fun _ _ _ => rfl⟩

/-- A loaded program lies above the font and ends within memory (R240). -/
theorem memoryOk_loadProgram (s : State) (src : Option (List Byte)) : MemoryOk (s.loadProgram src) := by
  unfold State.loadProgram
  split
  · exact memoryOk_hostReset s
  · next b hb =>
    have hlen := length_of_loadable hb
    simp only [progMax] at hlen
    refine ⟨writeAll_wf b progBase [] (nil_wf _) (by simp only [memSize, progBase]; omega), fun _ a ha => ?_⟩
    refine (read_writeAll b progBase [] List.Pairwise.nil a).trans (dif_neg ?_)
    simp only [fontSize, progBase] at ha ⊢
    omega

/-! ### The reported condition -/

/-- No instruction reports LoadError (R210). -/
theorem exec_event_ne_loadError (h : exec i s = .next t) (hs : s.event ≠ .loadError) : t.event ≠ .loadError := by
  have hf := instrFrame_of_exec h
  cases i with
  | ret =>
    obtain rfl := Host.Outcome.next.inj h
    split
    · split <;> exact Condition.noConfusion
    · exact hs
  | sys nnn => obtain rfl := Host.Outcome.next.inj h; exact Condition.noConfusion
  | call | seReg | sneReg =>
    obtain rfl := Host.Outcome.next.inj h
    split
    · exact Condition.noConfusion
    · exact hs
  | _ => simp only [InstrFrame] at hf; rw [hf]; exact hs

/-! ### The invariant: the machine's operations keep it -/

theorem snapshotConsistent_sampleInput (s : State) (k : Keys) : snapshotConsistent (s.sampleInput k) := by
  unfold snapshotConsistent
  split
  · next hl => exact lowestKey_none_iff.1 hl
  · next j hl => exact lowestKey_some hl

theorem inv_sampleInput (h : Inv s) (k : Keys) : Inv (s.sampleInput k) :=
  { h with snapshot := snapshotConsistent_sampleInput s k }

theorem inv_report (h : Inv s) (e : Condition) : Inv (s.report e) := { h with }

theorem inv_raiseFetchFault (h : Inv s) (hpc : s.pc.toNat > 0xFFE) : Inv s.raiseFetchFault :=
  { h with fault := ⟨rfl, hpc⟩ }

theorem inv_appendRecord (h : Inv s) (he : s.event ≠ .loadError) (p : Word) (op : Option Word) (k : RecordKind) :
    Inv (s.appendRecord p op k) :=
  { h with
    log := ringAppend_length_le h.config.1 _ _
    logEvents := fun _ hr => (mem_ringAppend hr).elim (h.logEvents _) (fun hr => hr ▸ he) }

theorem inv_dropKeys (h : Inv s) : Inv s.dropKeys := by
  rw [dropKeys_frame]; exact { h with }

theorem inv_withPending (h : Inv s) (r : List HostAction) : Inv (withPending s r) := { h with }

theorem inv_setPhase (h : Inv s) {p : Phase} (hp : phaseConsistent (s.setPhase p)) : Inv (s.setPhase p) :=
  { h with phase := hp }

theorem inv_finishFrame (h : Inv s) : Inv s.finishFrame := { h with }

theorem inv_countStepped (h : Inv s) : Inv s.countStepped := by
  have hlt : s.stepCount < s.cfg.stepTickInterval := h.stepCount
  unfold State.countStepped
  split
  · exact { h with stepCount := h.config.2 }
  · exact { h with stepCount := by unfold stepCountBounded; simp only; omega }

theorem inv_hostReset (h : Inv s) : Inv s.hostReset :=
  { h with
    stackPointer := Nat.zero_le _
    returnAddresses := fun k hk => absurd hk (Nat.not_lt_zero k)
    pc := (by decide : (0x0200#16).toNat ≤ 0x10FE)
    memory := (memoryOk_hostReset s).1
    font := (memoryOk_hostReset s).2
    stepCount := h.config.2
    snapshot := lowestKey_none_iff.1 (lowestKey_eq_none_iff_zero.2 rfl)
    fault := rfl }

theorem inv_loadProgram (h : Inv s) (src : Option (List Byte)) : Inv (s.loadProgram src) := by
  have hm := memoryOk_loadProgram s src
  rw [loadProgram_frame] at hm ⊢
  exact { inv_hostReset h with memory := hm.1, font := hm.2 }

theorem phaseConsistent_of_boundary (h : s.phase = .boundary) : phaseConsistent s := by
  unfold phaseConsistent; rw [h]; trivial

theorem inv_pauseToggle (h : Inv s) (hp : s.phase = .boundary) : Inv s.pauseToggle :=
  { h with phase := phaseConsistent_of_boundary hp }

theorem inv_elapse (h : Inv s) (n : Nat) : Inv (s.elapse n) := by
  rw [elapse_frame]; exact { h with }

/-! ### The invariant: instructions and cycles keep it -/

theorem not_faulted_of_fetchable (h : Inv s) (hpc : s.pc.toNat ≤ 0xFFE) : s.faulted = false := by
  cases hf : s.faulted with
  | false => rfl
  | true =>
    have hfault := h.fault
    unfold faultConsistent at hfault
    rw [if_pos hf] at hfault
    omega

theorem faultConsistent_of_not_faulted (hf : s.faulted = false) : faultConsistent s ↔ s.faultPc = 0 := by
  simp [faultConsistent, hf]

theorem exec_keeps_inv (hI : Inv s) (hpc : s.pc.toNat ≤ 0xFFE) (h : exec i s = .next t) : Inv t := by
  obtain ⟨hSP, hret⟩ := exec_keeps_stack h hpc hI.stackPointer hI.returnAddresses
  obtain ⟨hmem, hfont⟩ := exec_keeps_memory h ⟨hI.memory, hI.font⟩
  have hpc' : pcBounded t := (exec_pc h).toNat_le hpc hI.returnAddresses
  have hfault : t.faulted = false ∧ t.faultPc = 0 := by
    have hf := not_faulted_of_fetchable hI hpc
    rw [execFrame_of_exec h]
    exact ⟨hf, (faultConsistent_of_not_faulted hf).1 hI.fault⟩
  rw [execFrame_of_exec h] at *
  exact { hI with
    stackPointer := hSP, returnAddresses := hret, pc := hpc', memory := hmem, font := hfont
    fault := (faultConsistent_of_not_faulted hfault.1).2 hfault.2 }

theorem cycle_keeps_inv {k : Keys} (hI : Inv s) (h : cycle k s = .next t) : Inv t := by
  have hk := inv_sampleInput hI k
  cases cycleCase_of_cycle h with
  | faulted hf ht => exact ht ▸ hI
  | fetchFault hf hpc ht => exact ht ▸ inv_appendRecord (inv_raiseFetchFault hk hpc) Condition.noConfusion _ _ _
  | undefined e hf hpc hd ht => exact ht ▸ inv_appendRecord (inv_report hk _) Condition.noConfusion _ _ _
  | executed i u hf hpc hd hu ht =>
    exact ht ▸ inv_appendRecord (exec_keeps_inv hk hpc hu) (exec_event_ne_loadError hu Condition.noConfusion) _ _ _

theorem runCycle_keeps_inv (hI : Inv s) (h : runCycle s = .next t) : Inv t := cycle_keeps_inv (inv_dropKeys hI) h

/-! ### The invariant: steps keep it -/

/-- A frame in progress, or one that begins, runs while Running (R229). -/
theorem running_of_frame (hI : Inv s) {left : Nat}
    (hw : s.phase = .frame left ∨ s.phase = .boundary ∧ s.runState = .running) : s.runState = .running := by
  rcases hw with hp | ⟨_, hr⟩
  · have h := hI.phase
    unfold phaseConsistent at h
    rw [hp] at h
    exact h.1
  · exact hr

/-- A Step request in progress, or one that begins, runs while Paused (R229). -/
theorem paused_of_stepping (hI : Inv s) {left : Nat}
    (hw : s.phase = .stepping left ∨ s.phase = .boundary ∧ s.runState = .paused) : s.runState = .paused := by
  rcases hw with hp | ⟨_, hr⟩
  · have h := hI.phase
    unfold phaseConsistent at h
    rw [hp] at h
    exact h.1
  · exact hr

theorem inv_afterFrameCycle (h : Inv s) (hr : s.runState = .running) (left : Nat) : Inv (afterFrameCycle left s) := by
  unfold afterFrameCycle
  split
  · exact inv_setPhase (inv_finishFrame h) (phaseConsistent_of_boundary rfl)
  · exact inv_setPhase h ⟨hr, by omega⟩

theorem inv_afterStepCycle (h : Inv s) (hr : s.runState = .paused) (left : Nat) : Inv (afterStepCycle left s) := by
  have hr' : s.countStepped.runState = .paused := by rw [countStepped_frame]; exact hr
  unfold afterStepCycle
  split
  · exact inv_setPhase (inv_countStepped h) (phaseConsistent_of_boundary rfl)
  · exact inv_setPhase (inv_countStepped h) ⟨hr', by omega⟩

/-- Settles O58, by what each step can do: cycles keep the invariant, and so do what the controller adds to them and each of
the host's actions. -/
theorem stepKeepsInvariant : Obligations.StepKeepsInvariant := by
  intro s t hI h
  cases stepCase_of_step h with
  | emptyFrame r ht =>
    exact ht ▸ inv_setPhase (inv_finishFrame (inv_withPending hI r)) (phaseConsistent_of_boundary rfl)
  | idle r ht => exact ht ▸ inv_setPhase (inv_withPending hI r) (phaseConsistent_of_boundary rfl)
  | frameCycle left r u hw hu ht =>
    obtain ⟨-, hr, -⟩ := sameController_of_runCycle hu
    have hrun : u.runState = .running := hr.trans (running_of_frame (s := s) hI hw)
    exact ht ▸ inv_afterFrameCycle (runCycle_keeps_inv (inv_withPending hI r) hu) hrun left
  | stepCycle left r u hw hu ht =>
    obtain ⟨-, hr, -⟩ := sameController_of_runCycle hu
    have hrun : u.runState = .paused := hr.trans (paused_of_stepping (s := s) hI hw)
    exact ht ▸ inv_afterStepCycle (runCycle_keeps_inv (inv_withPending hI r) hu) hrun left
  | pauseToggle r hp hr ht => exact ht ▸ inv_pauseToggle (inv_withPending hI r) hp
  | setFrequency n r hp hr ht => exact ht ▸ { inv_withPending hI r with }
  | loadProgram src r hp hr ht => exact ht ▸ { inv_loadProgram (inv_withPending hI r) src with }
  | reset r hp hr ht => exact ht ▸ inv_hostReset (inv_withPending hI r)
  | close r ht => exact ht ▸ { inv_withPending hI r with }
  | elapse n r ht => exact ht ▸ inv_elapse (inv_withPending hI r) n

end Sys2Proof.Proofs
end

section
/-! PROOFS of the statements about memory (`20_memory.md`): what the two storing instructions leave at each address, which
instructions write memory and where, and that the next fetch sees a store. -/

namespace Sys2Proof.Proofs

open Sys2Proof.Machine Sys2Proof.Safety
open Sys2Proof.Laws.Memory Sys2Proof.Laws.IndexMemory Sys2Proof.Laws.Exec

variable {i : Instr} {s t : State} {x : Reg}

/-! ### What the storing instructions leave in memory -/

/-- Whether a store of `n` bytes from I upward takes effect at an address: one of the `n`, in memory, and not in a font that
FONT_WRITE protects (R66, R67, R173). -/
abbrev storeReaches (s : State) (n a : Nat) : Prop :=
  indexAddr s 0 ≤ a ∧ a < indexAddr s n ∧ inMem a ∧ writable s.cfg a

/-- LD [I], Vx, byte by byte (R170). -/
theorem readByte_of_exec_ldStore (h : exec (.ldStore x) s = .next t) (hm : Rising s.mem) (a : Nat) :
    t.readByte a =
      if storeReaches s (x.toNat + 1) a then s.getV (regOf (a - s.I.toNat)) else s.readByte a := by
  obtain rfl := Host.Outcome.next.inj h
  have hread := readByte_storeRegs (x.toNat + 1) 0 s hm a
  rwa [Nat.zero_add] at hread

/-- LD B, Vx, byte by byte (R169). -/
theorem readByte_of_exec_ldB (h : exec (.ldB x) s = .next t) (hm : Rising s.mem) (a : Nat) :
    t.readByte a = if storeReaches s 3 a then bcdDigit (s.getV x) (a - s.I.toNat) else s.readByte a := by
  obtain rfl := Host.Outcome.next.inj h
  have hm1 := memWriteIn_rising hm (indexAddr s 0) (bcdDigit (s.getV x) 0)
  have hm2 := memWriteIn_rising hm1 (indexAddr s 1) (bcdDigit (s.getV x) 1)
  refine (readByte_memWriteIn hm2 _ a _).trans ?_
  rw [readByte_memWriteIn hm1, readByte_memWriteIn hm]
  have hia : ∀ k, indexAddr s k = s.I.toNat + k := fun _ => rfl
  simp only [memWriteIn_cfg, storeReaches, hia]
  by_cases hr : s.I.toNat + 0 ≤ a ∧ a < s.I.toNat + 3
  · have ha : a = s.I.toNat ∨ a = s.I.toNat + 1 ∨ a = s.I.toNat + 2 := by omega
    rcases ha with rfl | rfl | rfl <;> simp
  · rw [if_neg (fun hx => hr (by omega)), if_neg (fun hx => hr (by omega)), if_neg (fun hx => hr (by omega)),
      if_neg (fun hx => hr ⟨hx.1, hx.2.1⟩)]

/-! ### Who writes memory -/

theorem memoryCanonical_memWriteIn (h : memoryCanonical s) (a : Nat) (v : Byte) : memoryCanonical (s.memWriteIn a v) := by
  unfold memoryCanonical
  rw [memWriteIn_cfg]
  exact memWriteIn_wf h a v

theorem memoryCanonical_storeRegs (h : memoryCanonical s) (n k : Nat) : memoryCanonical (storeRegs n k s) := by
  have hcfg : (storeRegs n k s).cfg = s.cfg := by rw [storeRegs_frame]
  unfold memoryCanonical
  rw [hcfg]
  exact storeRegs_wf n k s h

theorem exec_keeps_memoryCanonical (h : exec i s = .next t) (hm : memoryCanonical s) : memoryCanonical t := by
  have hf := instrFrame_of_exec h
  cases i with
  | ldB x =>
    obtain rfl := Host.Outcome.next.inj h
    exact memoryCanonical_memWriteIn (memoryCanonical_memWriteIn (memoryCanonical_memWriteIn hm _ _) _ _) _ _
  | ldStore x =>
    obtain rfl := Host.Outcome.next.inj h
    exact memoryCanonical_storeRegs hm _ _
  | _ => simp only [InstrFrame] at hf; rw [hf]; exact hm

/-- A byte that an instruction changed is one that a store of LD B or LD [I] reached. -/
theorem storeReaches_of_exec_changed (h : exec i s = .next t) (hm : Rising s.mem) {a : Nat}
    (hne : t.readByte a ≠ s.readByte a) :
    (∃ x, i = .ldB x ∧ storeReaches s 3 a) ∨ ∃ x : Reg, i = .ldStore x ∧ storeReaches s (x.toNat + 1) a := by
  have hf := instrFrame_of_exec h
  cases i with
  | ldB x =>
    rw [readByte_of_exec_ldB h hm, ite_ne_right_iff] at hne
    exact .inl ⟨x, rfl, hne.1⟩
  | ldStore x =>
    rw [readByte_of_exec_ldStore h hm, ite_ne_right_iff] at hne
    exact .inr ⟨x, rfl, hne.1⟩
  | _ => simp only [InstrFrame] at hf; rw [hf] at hne; exact absurd rfl hne

/-- Settles O37: each instruction keeps the canonical form, and the bytes it changes are those a store reaches. -/
theorem memoryWriters : Obligations.MemoryWriters := by
  intro i s t hm h
  have hcfg : t.cfg = s.cfg := by rw [execFrame_of_exec h]
  refine ⟨hcfg ▸ exec_keeps_memoryCanonical h hm, fun a hne => ?_⟩
  rcases storeReaches_of_exec_changed h hm.1 hne with ⟨x, hi, hlo, hhi, hin, hw⟩ | ⟨x, hi, hlo, hhi, hin, hw⟩
  · exact ⟨hin, hw, hlo, .inl ⟨x, hi, hhi⟩⟩
  · exact ⟨hin, hw, hlo, .inr ⟨x, hi, Nat.le_of_lt_succ hhi⟩⟩

/-! ### A store and the next fetch -/

theorem pc_of_exec_ldStore (h : exec (.ldStore x) s = .next t) : t.pc = s.pc + 2 := by
  obtain rfl := Host.Outcome.next.inj h
  rw [storeRegs_frame]; rfl

/-- A block store leaves Vr at I + r (R170). -/
theorem readByte_indexAddr_of_exec_ldStore (h : exec (.ldStore x) s = .next t) (hm : Rising s.mem) {r : Reg}
    (hr : r.toNat ≤ x.toNat) (hin : inMem (indexAddr s r.toNat)) (hw : writable s.cfg (indexAddr s r.toNat)) :
    t.readByte (indexAddr s r.toNat) = s.getV r := by
  have hreach : storeReaches s (x.toNat + 1) (indexAddr s r.toNat) :=
    ⟨Nat.add_le_add_left (Nat.zero_le _) _, Nat.add_lt_add_left (Nat.lt_succ_of_le hr) _, hin, hw⟩
  rw [readByte_of_exec_ldStore h hm, if_pos hreach, indexAddr, Nat.add_sub_cancel_left, regOf_toNat]

/-- Settles O38: the fetch reads two bytes of the block just stored. -/
theorem storeSeenByNextFetch : Obligations.StoreSeenByNextFetch := by
  intro s t x r q hm h hpc hrx hq ha hwr hwq
  have haq : indexAddr s q.toNat = s.pc.toNat + 3 := by simp only [indexAddr] at ha ⊢; omega
  have hhi : t.readByte (s.pc.toNat + 2) = s.getV r := by
    rw [← ha] at hwr ⊢
    exact readByte_indexAddr_of_exec_ldStore h hm.1 (by omega) (ha.trans_lt (by omega)) hwr
  have hlo : t.readByte (s.pc.toNat + 3) = s.getV q := by
    rw [← haq] at hwq ⊢
    exact readByte_indexAddr_of_exec_ldStore h hm.1 (by omega) (haq.trans_lt hpc) hwq
  have hnext : t.pc.toNat = s.pc.toNat + 2 := by
    simp only [memSize] at hpc
    rw [pc_of_exec_ldStore h, toNat_add_two (by omega)]
  rw [State.fetch, hnext, hhi, hlo]

end Sys2Proof.Proofs
end

section
/-! PROOFS of the statements about encoding (`30_encoding.md`): the round trips of decoding and encoding, the undefined encodings,
the values an instruction leaves in pc, and what a cycle that is due runs. -/

namespace Sys2Proof.Proofs

open Sys2Proof.Machine Sys2Proof.Safety
open Sys2Proof.Laws Sys2Proof.Laws.Decode Sys2Proof.Laws.Ops Sys2Proof.Laws.Exec Sys2Proof.Laws.Cycle

variable {strict : Bool} {op : Word} {i : Instr} {s t : State}

/-! ### Decoding an encoding -/

theorem decode_encode : ∀ {i : Instr}, i.wellFormed strict = true → decode strict (encode i) = .ok i
  | .cls => RoundTrip.cls strict
  | .ret => RoundTrip.ret strict
  | .sys nnn => RoundTrip.sys nnn strict
  | .jp nnn => RoundTrip.jp nnn strict
  | .call nnn => RoundTrip.call nnn strict
  | .seImm x kk => RoundTrip.seImm x kk strict
  | .sneImm x kk => RoundTrip.sneImm x kk strict
  | .seReg x y n => RoundTrip.seReg x y n strict
  | .ldImm x kk => RoundTrip.ldImm x kk strict
  | .addImm x kk => RoundTrip.addImm x kk strict
  | .ldReg x y => RoundTrip.ldReg x y strict
  | .orReg x y => RoundTrip.orReg x y strict
  | .andReg x y => RoundTrip.andReg x y strict
  | .xorReg x y => RoundTrip.xorReg x y strict
  | .addReg x y => RoundTrip.addReg x y strict
  | .sub x y => RoundTrip.sub x y strict
  | .shr x y => RoundTrip.shr x y strict
  | .subn x y => RoundTrip.subn x y strict
  | .shl x y => RoundTrip.shl x y strict
  | .sneReg x y n => RoundTrip.sneReg x y n strict
  | .ldI nnn => RoundTrip.ldI nnn strict
  | .jpV0 nnn => RoundTrip.jpV0 nnn strict
  | .rnd x kk => RoundTrip.rnd x kk strict
  | .drw x y n => RoundTrip.drw x y n strict
  | .skp x => RoundTrip.skp x strict
  | .sknp x => RoundTrip.sknp x strict
  | .ldVxDt x => RoundTrip.ldVxDt x strict
  | .ldVxK x => RoundTrip.ldVxK x strict
  | .ldDtVx x => RoundTrip.ldDtVx x strict
  | .ldStVx x => RoundTrip.ldStVx x strict
  | .addI x => RoundTrip.addI x strict
  | .ldF x => RoundTrip.ldF x strict
  | .ldB x => RoundTrip.ldB x strict
  | .ldStore x => RoundTrip.ldStore x strict
  | .ldLoad x => RoundTrip.ldLoad x strict

/-- The bytes of a word that decodes, with others behind them (R62). -/
theorem decodeBytes_bytesOfOpcode (h : decode strict op = .ok i) (rest : List Byte) :
    decodeBytes strict ((bytesOfOpcode op).1 :: (bytesOfOpcode op).2 :: rest) = .ok (i, rest) := by
  rw [decodeBytes, opcodeOfBytes_bytesOfOpcode, h]

/-- Settles O1, by the round trip of each instruction. -/
theorem decodeOfEncode : Obligations.DecodeOfEncode := fun _ _ rest hw =>
  ⟨decode_encode hw, decodeBytes_bytesOfOpcode (decode_encode hw) rest⟩

/-- Settles O4, by evaluating the decoder on each word. -/
theorem specWordsDecode : Obligations.SpecWordsDecode := by
  unfold Obligations.SpecWordsDecode
  decide

/-! ### Encoding what a word decodes to -/

theorem formatA_of_group {g : Nibble} (hG : fieldG op = g) : formatA g (fieldNNN op) = op := by
  rw [← hG, formatA_fields]

theorem formatXK_of_group {g : Nibble} (hG : fieldG op = g) : formatXK g (fieldX op) (fieldKK op) = op := by
  rw [← hG, formatXK_fields]

theorem formatXYN_of_group {g : Nibble} (hG : fieldG op = g) :
    formatXYN g (fieldX op) (fieldY op) (fieldN op) = op := by
  rw [← hG, formatXYN_fields]

theorem formatA_of_selector {g : Nibble} {nnn : Addr} (hG : fieldG op = g) (hnnn : fieldNNN op = nnn) :
    formatA g nnn = op := by
  rw [← hnnn, formatA_of_group hG]

/-- Format XF: the selector stands in kk. -/
theorem formatXK_of_selector {g : Nibble} {kk : Byte} (hG : fieldG op = g) (hkk : fieldKK op = kk) :
    formatXK g (fieldX op) kk = op := by
  rw [← hkk, formatXK_of_group hG]

/-- Format XYF: the selector stands in n, which the decoder matches as a number. -/
theorem formatXYN_of_selector {g n : Nibble} (hG : fieldG op = g) (hn : (fieldN op).toNat = n.toNat) :
    formatXYN g (fieldX op) (fieldY op) n = op := by
  rw [← BitVec.eq_of_toNat_eq hn, formatXYN_of_group hG]

/-- The right answer to a word: a well-formed instruction of which it is the encoding, or a reject if R101 lists it. -/
def ReadsWord (strict : Bool) (op : Word) : Except DecodeReject Instr → Prop
  | .ok i => encode i = op ∧ i.wellFormed strict = true
  | .error _ => undefinedEncoding strict op

theorem decodeGroup0_reads (hG : fieldG op = 0x0#4) : ReadsWord strict op (.ok (decodeGroup0 op)) := by
  unfold decodeGroup0
  split_ifs with h0 h1
  · exact ⟨formatA_of_selector hG h0, rfl⟩
  · exact ⟨formatA_of_selector hG h1, rfl⟩
  · exact ⟨formatA_of_group hG, by simp [Instr.wellFormed, h0, h1]⟩

theorem decodeGroup8_reads (hG : fieldG op = 0x8#4) : ReadsWord strict op (decodeGroup8 op) := by
  unfold decodeGroup8
  split
  case h_10 =>
    refine .inr (.inl ⟨hG, ?_⟩)
    have hlt := (fieldN op).isLt
    simp only [List.mem_cons, List.not_mem_nil, or_false, ← BitVec.toNat_inj, BitVec.toNat_ofNat, imp_false] at *
    omega
  all_goals exact ⟨formatXYN_of_selector hG ‹_›, rfl⟩

theorem decodeGroupE_reads (hG : fieldG op = 0xE#4) : ReadsWord strict op (decodeGroupE op) := by
  unfold decodeGroupE
  split_ifs
  case neg => exact .inr (.inr (.inl ⟨hG, by simp [*]⟩))
  all_goals exact ⟨formatXK_of_selector hG ‹_›, rfl⟩

theorem decodeGroupF_reads (hG : fieldG op = 0xF#4) : ReadsWord strict op (decodeGroupF op) := by
  unfold decodeGroupF
  split_ifs
  case neg => exact .inr (.inr (.inr (.inl ⟨hG, by simp [*]⟩)))
  all_goals exact ⟨formatXK_of_selector hG ‹_›, rfl⟩

/-- Groups 5 and 9 (R99). -/
theorem checkLowNibble_reads (hG : fieldG op = 0x5#4 ∨ fieldG op = 0x9#4) (hi : encode i = op)
    (hw : i.wellFormed strict = (!strict || fieldN op == 0#4)) : ReadsWord strict op (checkLowNibble strict op i) := by
  unfold checkLowNibble
  split
  · next h => exact .inr (.inr (.inr (.inr ⟨hG, h.2, h.1⟩)))
  · next h => exact ⟨hi, by cases strict <;> simp_all⟩

/-- Decoding answers rightly in each group (R94). Alternative `h_k` of the decoder's match is group k - 1. -/
theorem decode_reads (strict : Bool) (op : Word) : ReadsWord strict op (decode strict op) := by
  have group {g : Nibble} (h : (fieldG op).toNat = g.toNat) : fieldG op = g := BitVec.eq_of_toNat_eq h
  unfold decode
  split
  case h_1 h => exact decodeGroup0_reads (group h)
  case h_6 h => exact checkLowNibble_reads (.inl (group h)) (formatXYN_of_group (group h)) rfl
  case h_9 h => exact decodeGroup8_reads (group h)
  case h_10 h => exact checkLowNibble_reads (.inr (group h)) (formatXYN_of_group (group h)) rfl
  case h_15 h => exact decodeGroupE_reads (group h)
  case h_16 =>
    have hlt := (fieldG op).isLt
    have h : (fieldG op).toNat = 0xF := by simp only [imp_false] at *; omega
    exact decodeGroupF_reads (group h)
  case h_2 h | h_3 h | h_11 h | h_12 h => exact ⟨formatA_of_group (group h), rfl⟩
  case h_14 h => exact ⟨formatXYN_of_group (group h), rfl⟩
  all_goals exact ⟨formatXK_of_group (group ‹_›), rfl⟩

theorem encode_of_decode (h : decode strict op = .ok i) : encode i = op ∧ i.wellFormed strict = true := by
  have hr := decode_reads strict op
  rwa [h] at hr

/-- Settles O2, by what decoding answers in each group. -/
theorem encodeOfDecode : Obligations.EncodeOfDecode := fun _ _ _ => encode_of_decode

/-! ### The undefined encodings -/

/-- A word of R101's list is SYS, or is rejected. -/
theorem decode_of_undefinedEncoding (h : undefinedEncoding strict op) :
    (∃ nnn, decode strict op = .ok (.sys nnn)) ∨ ∃ e, decode strict op = .error e := by
  rcases h with ⟨hG, h0, h1⟩ | ⟨hG, hn⟩ | ⟨hG, hkk⟩ | ⟨hG, hkk⟩ | ⟨hG, hn, rfl⟩
  · have hop := formatA_of_group hG
    refine .inl ⟨fieldNNN op, ?_⟩
    have h0 : fieldNNN op ≠ 0x0E0#12 := fun h => h0 (by rw [← hop, h]; rfl)
    have h1 : fieldNNN op ≠ 0x0EE#12 := fun h => h1 (by rw [← hop, h]; rfl)
    simp [decode, hG, decodeGroup0, h0, h1]
  · refine .inr ⟨.undefinedGroup8, ?_⟩
    simp only [List.mem_cons, List.not_mem_nil, or_false] at hn
    rcases hn with hn | hn | hn | hn | hn | hn | hn <;> simp [decode, hG, decodeGroup8, hn]
  · refine .inr ⟨.undefinedGroupE, ?_⟩
    simp_all [decode, decodeGroupE]
  · refine .inr ⟨.undefinedGroupF, ?_⟩
    simp_all [decode, decodeGroupF]
  · refine .inr ⟨.strictLowNibble, ?_⟩
    rcases hG with hG | hG <;> simp [decode, hG, checkLowNibble, hn]

theorem undefinedEncoding_of_decode_sys {nnn : Addr} (h : decode strict op = .ok (.sys nnn)) :
    undefinedEncoding strict op := by
  obtain ⟨rfl, hw⟩ := encode_of_decode h
  simp only [Instr.wellFormed, Bool.and_eq_true, bne_iff_ne, ne_eq] at hw
  obtain ⟨h0, h1⟩ := hw
  have hnnn : fieldNNN (encode (.sys nnn)) = nnn := fieldNNN_formatA 0x0#4 nnn
  exact .inl ⟨fieldG_formatA _ _, fun h => h0 (by rw [← hnnn, h]; rfl), fun h => h1 (by rw [← hnnn, h]; rfl)⟩

theorem decode_of_not_undefinedEncoding (h : ¬ undefinedEncoding strict op) :
    ∃ i, decode strict op = .ok i ∧ ∀ nnn, i ≠ .sys nnn := by
  have hr := decode_reads strict op
  cases hd : decode strict op with
  | error e => rw [hd] at hr; exact absurd hr h
  | ok i => exact ⟨i, rfl, fun nnn hi => h (undefinedEncoding_of_decode_sys (hi ▸ hd))⟩

/-- Steps 3 to 5 of the cycle on an undefined encoding, in group 0 or outside it (R100). -/
theorem executeOpcode_undefined (h : undefinedEncoding s.cfg.strict59 op) :
    executeOpcode op s = .next (s.undefinedEncoding.appendRecord s.pc (some op) .undefined) := by
  unfold executeOpcode
  rcases decode_of_undefinedEncoding h with ⟨nnn, hd⟩ | ⟨e, hd⟩
  · rw [hd]; rfl
  · rw [hd]

/-- Settles O3, by what decoding answers to the words R101 lists and to the others. -/
theorem undefinedEncodings : Obligations.UndefinedEncodings := fun _ _ =>
  ⟨fun h => ⟨_, executeOpcode_undefined h, rfl, rfl, rfl⟩, decode_of_not_undefinedEncoding, fun _ => rfl⟩

/-! ### The ways of pc -/

/-- The instructions that skip (R121). -/
def Skips (i : Instr) : Prop :=
  (∃ x kk, i = .seImm x kk ∨ i = .sneImm x kk) ∨ (∃ x y n, i = .seReg x y n ∨ i = .sneReg x y n) ∨
    ∃ x, i = .skp x ∨ i = .sknp x

/-- The instructions that hold pc, each in the states in which it does (R106). -/
def HoldsPc (i : Instr) (s : State) : Prop :=
  (∃ x, i = .ldVxK x ∧ s.lastPressed = none) ∨ (i = .ret ∧ s.SP = 0 ∧ s.cfg.retUnderflowPc = .hold) ∨
    (∃ nnn, i = .sys nnn) ∨ (s.cfg.strict59 = true ∧ ∃ x y n, n ≠ 0#4 ∧ (i = .seReg x y n ∨ i = .sneReg x y n))

/-- The ways of pc through an instruction (R106). -/
inductive PcWay (i : Instr) (s t : State) : Prop
  | advance (hpc : t.pc = s.pc + 2)
  | skip (hpc : t.pc = s.pc + 4) (hi : Skips i)
  | jump (nnn : Addr) (hpc : t.pc = addrOperand nnn) (hi : i = .jp nnn ∨ (i = .call nnn ∧ s.SP < 16))
  | ret (hpc : t.pc = s.slot (s.SP - 1) + 2) (hi : i = .ret) (hSP : 1 ≤ s.SP)
  | jumpOffset (nnn : Addr) (hpc : t.pc = jumpOffsetTarget s nnn) (hi : i = .jpV0 nnn)
  | hold (hpc : t.pc = s.pc) (hi : HoldsPc i s)

theorem pcWay_skipIf (hi : Skips i) (s : State) : ∀ c, PcWay i s (s.skipIf c)
  | false => .advance rfl
  | true => .skip rfl hi

theorem exec_pcWay (h : exec i s = .next t) : PcWay i s t := by
  cases i with
  | ret =>
    obtain rfl := Host.Outcome.next.inj h
    split
    · next hSP =>
      split
      · exact .advance rfl
      · next hc => exact .hold rfl (.inr (.inl ⟨rfl, hSP, hc⟩))
    · exact .ret rfl rfl (by omega)
  | call nnn =>
    obtain rfl := Host.Outcome.next.inj h
    split
    · exact .advance rfl
    · exact .jump nnn rfl (.inr ⟨rfl, by omega⟩)
  | sys nnn => obtain rfl := Host.Outcome.next.inj h; exact .hold rfl (.inr (.inr (.inl ⟨nnn, rfl⟩)))
  | jp nnn => obtain rfl := Host.Outcome.next.inj h; exact .jump nnn rfl (.inl rfl)
  | jpV0 nnn => obtain rfl := Host.Outcome.next.inj h; exact .jumpOffset nnn rfl rfl
  | seImm x kk | sneImm x kk =>
    obtain rfl := Host.Outcome.next.inj h
    exact pcWay_skipIf (.inl ⟨x, kk, by simp⟩) s _
  | skp x | sknp x =>
    obtain rfl := Host.Outcome.next.inj h
    exact pcWay_skipIf (.inr (.inr ⟨x, by simp⟩)) s _
  | seReg x y n | sneReg x y n =>
    obtain rfl := Host.Outcome.next.inj h
    split
    · next hs => exact .hold rfl (.inr (.inr (.inr ⟨hs.1, x, y, n, hs.2, by simp⟩)))
    · exact pcWay_skipIf (.inr (.inl ⟨x, y, n, by simp⟩)) s _
  | ldVxK x =>
    obtain rfl := Host.Outcome.next.inj h
    split
    · next hk => exact .hold rfl (.inl ⟨x, rfl, hk⟩)
    · exact .advance rfl
  | orReg | andReg | xorReg => obtain rfl := Host.Outcome.next.inj h; rw [logicVfPolicy_frame]; exact .advance rfl
  | rnd x kk => obtain rfl := Host.Outcome.next.inj h; rw [dropRandom_frame]; exact .advance rfl
  | ldB x => obtain rfl := Host.Outcome.next.inj h; rw [execFrame_bcd]; exact .advance rfl
  | ldStore x => exact .advance (pc_of_exec_ldStore h)
  | ldLoad x => obtain rfl := Host.Outcome.next.inj h; rw [IndexMemory.loadRegs_frame]; exact .advance rfl
  | _ => obtain rfl := Host.Outcome.next.inj h; exact .advance rfl

/-- Settles O24, by the ways of pc and the numbers that the two jumps compute. -/
theorem pcChangesInFourWays : Obligations.PcChangesInFourWays := by
  intro i s t h
  cases exec_pcWay h with
  | advance hpc => exact .inl hpc
  | skip hpc hi => exact .inr (.inl ⟨hpc, hi⟩)
  | jump nnn hpc hi => exact .inr (.inr (.inl ⟨nnn, hi, by rw [hpc, toNat_addrOperand]⟩))
  | ret hpc hi hSP => exact .inr (.inr (.inr (.inl ⟨hi, hSP, hpc⟩)))
  | jumpOffset nnn hpc hi => exact .inr (.inr (.inr (.inr (.inl ⟨nnn, hi, by rw [hpc, toNat_jumpOffsetTarget]⟩))))
  | hold hpc hi => exact .inr (.inr (.inr (.inr (.inr ⟨hpc, hi⟩))))

/-! ### What a cycle that is due runs -/

/-- Settles O12, by what a cycle that cannot fetch is. -/
theorem fetchFaultCycle : Obligations.FetchFaultCycle := fun _ _ hf hpc => ⟨_, cycle_fetchFault hf hpc, rfl⟩

/-- A cycle with the key vector taken from the host's inputs, when it fetches an instruction (R104). -/
theorem runCycle_decoded (hf : s.faulted = false) (hpc : s.pc.toNat ≤ 0xFFE)
    (hd : decode s.cfg.strict59 s.fetch = .ok i) :
    ∃ u, exec i (s.dropKeys.sampleInput s.nextKeys) = .next u ∧
      runCycle s = .next (u.appendRecord s.pc (some s.fetch) (recordKind i)) := by
  have hf' : s.dropKeys.faulted = false := by rw [dropKeys_frame]; exact hf
  have hpc' : s.dropKeys.pc.toNat ≤ 0xFFE := by rw [dropKeys_frame]; exact hpc
  have hd' : decode s.dropKeys.cfg.strict59 s.dropKeys.fetch = .ok i := by rw [dropKeys_frame]; exact hd
  obtain ⟨u, hu, hrun⟩ := cycle_decoded (k := s.nextKeys) hf' hpc' hd'
  refine ⟨u, hu, hrun.trans ?_⟩
  rw [dropKeys_frame]; rfl

/-- A step in a frame, or of a Running block at a boundary with nothing pending (log 6), is a step of the frame. -/
theorem step_of_frame_due {left : Nat} (hc : s.closed = false)
    (hw : s.phase = .frame left ∨
      (s.phase = .boundary ∧ s.hostActions = [] ∧ s.runState = .running ∧ s.instrFreq = left)) :
    step s = frameStep left s := by
  rw [step_of_open hc]
  rcases hw with hp | ⟨hp, ha, hr, rfl⟩
  · rw [hp]
  · rw [hp]; simp only [boundaryStep, ha, hr]

/-- Settles O10, by what a step of an open block and a cycle that fetches are. -/
theorem stepRunsDecodedInstruction : Obligations.StepRunsDecodedInstruction := by
  intro s i left hc hf hpc hd hleft
  obtain ⟨u, hu, hrun⟩ := runCycle_decoded hf hpc hd
  obtain ⟨k, rfl⟩ := Nat.exists_eq_add_of_le' hleft
  refine ⟨u, hu, fun hw => ?_, fun hp => ?_⟩
  · rw [step_of_frame_due hc hw, frameStep_succ, hrun, andThen_next]
  · rw [step_of_open hc, hp]
    simp only [steppingStep_succ, hrun, andThen_next]

end Sys2Proof.Proofs
end

section
/-! PROOFS of the statements about control flow (`40_control_flow.md`): the jumps, the register skips, CALL and RET, and who writes
SP. -/

namespace Sys2Proof.Proofs

open Sys2Proof.Machine
open Sys2Proof.Laws.Ops Sys2Proof.Laws.Exec

variable {i : Instr} {s t : State}

/-! ### Jumps -/

/-- Settles O18, by the numbers that the two target operands are. -/
theorem jumps : Obligations.Jumps := fun _ nnn =>
  ⟨⟨_, rfl, toNat_addrOperand nnn, rfl⟩, ⟨_, rfl, toNat_jumpOffsetTarget nnn, rfl⟩⟩

/-! ### Register skips -/

/-- A skip on equality, with its test as a proposition (R121). -/
theorem skipIf_beq (s : State) (a b : Byte) :
    s.skipIf (a == b) = { s with pc := s.pc + if a = b then 4 else 2 } := by
  by_cases h : a = b <;> simp [State.skipIf, State.setPc, h]

/-- A skip on inequality, with its test as a proposition (R121). -/
theorem skipIf_bne (s : State) (a b : Byte) :
    s.skipIf (a != b) = { s with pc := s.pc + if a = b then 2 else 4 } := by
  by_cases h : a = b <;> simp [State.skipIf, State.setPc, h]

/-- Settles O19, by the two tests of the skips, and by R99 for the low nibble. -/
theorem registerSkips : Obligations.RegisterSkips := by
  intro s x y kk n
  refine ⟨congrArg _ (skipIf_beq s _ kk), congrArg _ (skipIf_bne s _ kk), fun hdefined => ?_, fun hstrict hn => ?_⟩
  · have hlow : ¬ (s.cfg.strict59 = true ∧ n ≠ 0#4) := by
      rintro ⟨hstrict, hn⟩
      exact hdefined.elim (by simp [hstrict]) hn
    exact ⟨congrArg _ ((if_neg hlow).trans (skipIf_beq s _ _)), congrArg _ ((if_neg hlow).trans (skipIf_bne s _ _))⟩
  · have hlow : s.cfg.strict59 = true ∧ n ≠ 0#4 := ⟨hstrict, hn⟩
    exact ⟨congrArg _ (if_pos hlow), congrArg _ (if_pos hlow)⟩

/-! ### CALL and RET -/

theorem exec_call_of_lt (hSP : s.SP < 16) (nnn : Addr) :
    exec (.call nnn) s = .next ((s.push s.pc).setPc (addrOperand nnn)) :=
  congrArg _ (if_neg (by omega))

theorem exec_call_of_full (hSP : s.SP ≥ 16) (nnn : Addr) :
    exec (.call nnn) s = .next (s.report .stackOverflow).advance :=
  congrArg _ (if_pos hSP)

theorem exec_ret_of_pos (hSP : 1 ≤ s.SP) : exec .ret s = .next (s.pop.setPc (s.slot (s.SP - 1) + 2)) :=
  congrArg _ (if_neg (by omega))

theorem exec_ret_of_empty_advance (hSP : s.SP = 0) (hpolicy : s.cfg.retUnderflowPc = .advance) :
    exec .ret s = .next (s.report .stackUnderflow).advance := by
  simp only [exec, execRet, if_pos hSP, hpolicy]

theorem exec_ret_of_empty_hold (hSP : s.SP = 0) (hpolicy : s.cfg.retUnderflowPc = .hold) :
    exec .ret s = .next (s.report .stackUnderflow) := by
  simp only [exec, execRet, if_pos hSP, hpolicy, State.hold]

/-- Settles O20, by the two cases of CALL and what a push leaves in each slot. -/
theorem callEffect : Obligations.CallEffect := fun _ nnn =>
  ⟨fun hSP => ⟨_, exec_call_of_lt hSP nnn, toNat_addrOperand nnn, rfl, fun k _ => slot_push hSP _ k, rfl⟩,
    fun hSP => exec_call_of_full hSP nnn⟩

/-- Settles O21, by the three cases of RET. -/
theorem retEffect : Obligations.RetEffect := fun _ =>
  ⟨fun hSP _ => ⟨_, exec_ret_of_pos hSP, rfl, rfl, rfl⟩, exec_ret_of_empty_advance, exec_ret_of_empty_hold⟩

/-- Settles O22: the RET pops the slot that the CALL pushed its address into. -/
theorem callThenReturn : Obligations.CallThenReturn := by
  intro s nnn hSP
  refine ⟨_, exec_call_of_lt hSP nnn, fun u huSP huslot => ?_⟩
  have huSP : u.SP = s.SP + 1 := huSP
  have hsaved : u.slot s.SP = s.pc := huslot.trans ((slot_push hSP s.pc s.SP).trans (if_pos rfl))
  refine ⟨_, exec_ret_of_pos (by omega), ?_, ?_⟩
  · change u.slot (u.SP - 1) + 2 = s.pc + 2
    rw [huSP, Nat.add_sub_cancel, hsaved]
  · change u.SP - 1 = s.SP
    rw [huSP, Nat.add_sub_cancel]

/-! ### The writers of SP -/

/-- What becomes of SP in an instruction (R133): CALL pushes, RET pops, and every other instruction leaves it. -/
inductive SPChange (i : Instr) (s t : State) : Prop
  | unchanged (hSP : t.SP = s.SP)
  | push (nnn : Addr) (hi : i = .call nnn) (hroom : s.SP ≤ 15) (hSP : t.SP = s.SP + 1)
  | pop (hi : i = .ret) (hlive : 1 ≤ s.SP) (hSP : t.SP = s.SP - 1)

theorem exec_spChange (h : exec i s = .next t) : SPChange i s t := by
  have hf := instrFrame_of_exec h
  cases i with
  | call nnn =>
    obtain rfl := Host.Outcome.next.inj h
    split
    · exact .unchanged rfl
    · exact .push nnn rfl (by omega) rfl
  | ret =>
    obtain rfl := Host.Outcome.next.inj h
    split
    · split <;> exact .unchanged rfl
    · exact .pop rfl (by omega) rfl
  | _ => simp only [InstrFrame] at hf; exact .unchanged (by rw [hf])

/-- Settles O23, by what becomes of SP in each instruction. -/
theorem onlyCallAndRetWriteSP : Obligations.OnlyCallAndRetWriteSP := by
  refine ⟨fun _ => rfl, fun i s t h => ?_⟩
  cases exec_spChange h with
  | unchanged hSP => exact ⟨fun hne => absurd hSP hne, fun hle => by omega⟩
  | push nnn hi hroom hSP => exact ⟨fun _ => .inl ⟨⟨nnn, hi⟩, hroom, hSP⟩, fun _ => by omega⟩
  | pop hi hlive hSP => exact ⟨fun _ => .inr ⟨hi, hlive, hSP⟩, fun hle => by omega⟩

end Sys2Proof.Proofs
end

section
/-! PROOFS of the statements about the ALU (`41_alu.md`): register loads, the logic operations, the operations with a flag, RND, and
who changes VF. -/

namespace Sys2Proof.Proofs

open Sys2Proof.Machine Sys2Proof.Safety
open Sys2Proof.Laws.State Sys2Proof.Laws.Ops Sys2Proof.Laws.IndexMemory Sys2Proof.Laws.Exec

variable {s : State} {x r : Reg} {v : Byte} {f : Bool}

/-! ### Register writes -/

theorem getV_setV_self (s : State) (x : Reg) (v : Byte) : (s.setV x v).getV x = v := by
  rw [getV_setV, if_pos rfl]

theorem getV_setV_of_ne (s : State) (v : Byte) (h : r ≠ x) : (s.setV x v).getV r = s.getV r := by
  rw [getV_setV, if_neg h]

/-- Settles O25: each of the three loads is one register write. -/
theorem registerLoads : Obligations.RegisterLoads := fun s x _ kk =>
  ⟨⟨_, rfl, getV_setV_self s x _, fun _ => getV_setV_of_ne s _, rfl⟩,
    ⟨_, rfl, (congrArg BitVec.toNat (getV_setV_self s x _)).trans (BitVec.toNat_add (s.getV x) kk),
      fun _ => getV_setV_of_ne s _, rfl⟩,
    ⟨_, rfl, getV_setV_self s x _, fun _ => getV_setV_of_ne s _, rfl⟩⟩

/-! ### Logic operations -/

/-- Register by register: VF cleared under LOGIC_VF = zero, the result in Vx, the others kept (R145). -/
theorem getV_setV_logicVfPolicy (s : State) (x r : Reg) (v : Byte) :
    (s.setV x v).logicVfPolicy.getV r =
      if r = vf ∧ s.cfg.logicVf = .zero then 0 else if r = x then v else s.getV r := by
  rw [getV_logicVfPolicy, getV_setV, setV_cfg]

/-- What a logic operation on Vx leaves, when bit b of its result is `bit b` (R144 to R147). -/
def LogicEffect (s t : State) (x : Reg) (bit : Nat → Bool) : Prop :=
  t = { s with pc := s.pc + 2, V := t.V } ∧
    ∀ r, if r = vf ∧ s.cfg.logicVf = .zero then t.getV r = 0
      else if r = x then ∀ b, b < 8 → (t.getV r).getLsbD b = bit b
      else t.getV r = s.getV r

theorem logicEffect (s : State) (x : Reg) {bit : Nat → Bool} (hbit : ∀ b, v.getLsbD b = bit b) :
    LogicEffect s (s.setV x v).logicVfPolicy.advance x bit := by
  refine ⟨by rw [logicVfPolicy_frame]; rfl, fun r => ?_⟩
  rw [getV_advance, getV_setV_logicVfPolicy]
  split
  · rfl
  · split
    · exact fun b _ => hbit b
    · rfl

/-- Settles O26, by what the three operations share and the bits of each result. -/
theorem logicOperations : Obligations.LogicOperations := fun s x _ =>
  ⟨⟨_, rfl, logicEffect s x fun _ => BitVec.getLsbD_or⟩, ⟨_, rfl, logicEffect s x fun _ => BitVec.getLsbD_and⟩,
    ⟨_, rfl, logicEffect s x fun _ => BitVec.getLsbD_xor⟩⟩

/-! ### Operations with a flag -/

/-- What an operation with a flag leaves: the flag in VF, the result in Vx unless x is F, the other registers kept (R148). -/
def FlaggedEffect (s t : State) (x : Reg) (flag result : Nat) : Prop :=
  t = { s with pc := s.pc + 2, V := t.V } ∧ (t.getV vf).toNat = flag ∧ (x ≠ vf → (t.getV x).toNat = result) ∧
    ∀ r, r ≠ x → r ≠ vf → t.getV r = s.getV r

theorem flaggedEffect (s : State) (x : Reg) {flag result : Nat} (hflag : (flagByte f).toNat = flag)
    (hresult : v.toNat = result) : FlaggedEffect s (s.setResultAndFlag x v f).advance x flag result := by
  refine ⟨rfl, ?_, fun hx => ?_, fun r hrx hrf => ?_⟩
  · rw [getV_advance, getV_setResultAndFlag, if_pos rfl, hflag]
  · rw [getV_advance, getV_setResultAndFlag, if_neg hx, if_pos rfl, hresult]
  · rw [getV_advance, getV_setResultAndFlag, if_neg hrf, if_neg hrx]

theorem toNat_flagByte_addCarry (a b : Byte) :
    (flagByte (addCarry a b)).toNat = if a.toNat + b.toNat > 255 then 1 else 0 := by
  simp only [toNat_flagByte, addCarry, decide_eq_true_eq]

theorem toNat_flagByte_subNoBorrow (a b : Byte) :
    (flagByte (subNoBorrow a b)).toNat = if a.toNat > b.toNat then 1 else 0 := by
  simp only [toNat_flagByte, subNoBorrow, decide_eq_true_eq]

/-- The difference modulo 256, with the minuend first, as R150 has it. -/
theorem toNat_sub_byte (a b : Byte) : (a - b).toNat = (a.toNat + 256 - b.toNat) % 256 := by bv_omega

/-- Settles O27, by what the three operations share, and the flag and the result of each. -/
theorem flaggedArithmetic : Obligations.FlaggedArithmetic := fun s x _ =>
  ⟨⟨_, rfl, flaggedEffect s x (toNat_flagByte_addCarry _ _) (BitVec.toNat_add _ _)⟩,
    ⟨_, rfl, flaggedEffect s x (toNat_flagByte_subNoBorrow _ _) (toNat_sub_byte _ _)⟩,
    ⟨_, rfl, flaggedEffect s x (toNat_flagByte_subNoBorrow _ _) (toNat_sub_byte _ _)⟩⟩

/-- The bit that SHR shifts out is the remainder of halving (R151). -/
theorem toNat_flagByte_shiftRightOut (a : Byte) : (flagByte (shiftRightOut a)).toNat = a.toNat % 2 := by
  simp only [toNat_flagByte, shiftRightOut, BitVec.getLsbD, Nat.testBit_zero, decide_eq_true_eq]
  split <;> omega

/-- The bit that SHL shifts out is the carry of doubling (R153). -/
theorem toNat_flagByte_shiftLeftOut (a : Byte) : (flagByte (shiftLeftOut a)).toNat = a.toNat / 128 := by
  have := a.isLt
  simp only [toNat_flagByte, shiftLeftOut, BitVec.getLsbD, Nat.testBit_eq_decide_div_mod_eq, decide_eq_true_eq]
  split <;> omega

theorem toNat_shiftRight_one (a : Byte) : (a >>> 1).toNat = a.toNat / 2 := by
  rw [BitVec.toNat_ushiftRight, Nat.shiftRight_one]

theorem toNat_shiftLeft_one (a : Byte) : (a <<< 1).toNat = a.toNat * 2 % 256 := by
  rw [BitVec.toNat_shiftLeft, Nat.shiftLeft_eq]

/-- Settles O28, as an operation with a flag: the bit shifted out. -/
theorem shifts : Obligations.Shifts := fun s x _ =>
  ⟨⟨_, rfl, flaggedEffect s x (toNat_flagByte_shiftRightOut _) (toNat_shiftRight_one _)⟩,
    ⟨_, rfl, flaggedEffect s x (toNat_flagByte_shiftLeftOut _) (toNat_shiftLeft_one _)⟩⟩

/-! ### RND -/

theorem nextRandom_of_cons {c : Byte} {rest : List Byte} (h : s.randomInputs = c :: rest) : s.nextRandom = c := by
  simp only [State.nextRandom, h]

theorem dropRandom_of_cons {c : Byte} {rest : List Byte} (h : s.randomInputs = c :: rest) :
    s.dropRandom = { s with randomInputs := rest } := by
  simp only [State.dropRandom, h]

theorem dropRandom_of_nil (h : s.randomInputs = []) : s.dropRandom = { s with freeIndex := s.freeIndex + 1 } := by
  simp only [State.dropRandom, h]

/-- A bit that a mask clears is clear. -/
theorem getLsbD_and_of_mask_false {kk : Byte} {j : Nat} (b : Byte) (h : kk.getLsbD j = false) :
    (b &&& kk).getLsbD j = false := by
  rw [BitVec.getLsbD_and, h, Bool.and_false]

/-- Settles O29: the byte is the source's next one, and the two cases of drawing it say what is left of the source. -/
theorem randomMasked : Obligations.RandomMasked := by
  intro s x kk
  have hx := getV_setV_self s.dropRandom x (s.nextRandom &&& kk)
  refine ⟨_, s.nextRandom, rfl, hx, fun j hj => ?_, fun r hr => ?_, fun c rest hc => ?_, fun hnil => ?_, ?_⟩
  · rw [getV_advance, hx]
    exact getLsbD_and_of_mask_false _ hj
  · rw [getV_advance, getV_setV_of_ne _ _ hr, getV_dropRandom]
  · rw [dropRandom_of_cons hc]
    exact ⟨nextRandom_of_cons hc, rfl, rfl⟩
  · rw [dropRandom_of_nil hnil]
    exact ⟨hnil, rfl⟩
  · rw [dropRandom_frame]; rfl

/-! ### Who changes VF -/

theorem eq_of_setV_changed (h : (s.setV x v).getV r ≠ s.getV r) : x = r :=
  not_not.1 fun hx => h (getV_setV_of_ne s v (Ne.symm hx))

theorem policy_zero_or_eq_of_logic_changed (h : (s.setV x v).logicVfPolicy.getV vf ≠ s.getV vf) :
    s.cfg.logicVf = .zero ∨ x = vf := by
  by_contra hno
  obtain ⟨hz, hx⟩ := not_or.1 hno
  exact h ((getV_setV_logicVfPolicy s x vf v).trans ((if_neg fun hp => hz hp.2).trans (if_neg (Ne.symm hx))))

/-- A block load reaches VF only as its last register. -/
theorem eq_vf_of_ldLoad_changed (h : (loadRegs (x.toNat + 1) 0 s).getV vf ≠ s.getV vf) : x = vf := by
  rw [getV_loadRegs _ _ _ (by omega), ite_ne_right_iff] at h
  obtain ⟨⟨-, hlt, -⟩, -⟩ := h
  bv_omega

/-- Settles O30, by the writes of each instruction: one that writes V either sets a flag or writes the registers it names. -/
theorem vfWriters : Obligations.VfWriters := by
  intro i s t h hne
  have hf := instrFrame_of_exec h
  cases i with
  | addReg | sub | shr | subn | shl | drw => exact .inl rfl
  | orReg x y | andReg x y | xorReg x y =>
    obtain rfl := Host.Outcome.next.inj h
    exact (policy_zero_or_eq_of_logic_changed hne).imp beq_iff_eq.2 beq_iff_eq.2
  | ldImm x _ | addImm x _ | ldReg x _ | ldVxDt x =>
    obtain rfl := Host.Outcome.next.inj h
    exact .inr (beq_iff_eq.2 (eq_of_setV_changed hne))
  | rnd x kk =>
    obtain rfl := Host.Outcome.next.inj h
    rw [← getV_dropRandom (s := s)] at hne
    exact .inr (beq_iff_eq.2 (eq_of_setV_changed hne))
  | ldVxK x =>
    obtain rfl := Host.Outcome.next.inj h
    split at hne
    · exact absurd rfl hne
    · exact .inr (beq_iff_eq.2 (eq_of_setV_changed hne))
  | ldLoad x =>
    obtain rfl := Host.Outcome.next.inj h
    exact .inr (beq_iff_eq.2 (eq_vf_of_ldLoad_changed hne))
  | _ => simp only [InstrFrame] at hf; rw [hf] at hne; exact absurd rfl hne

end Sys2Proof.Proofs
end

section
/-! PROOFS of the statements about the index register and memory (`42_index_memory.md`): the loads of I, the glyph that LD F points
at, the two storing instructions, the block load, and a store that a load takes back. -/

namespace Sys2Proof.Proofs

open Sys2Proof.Machine
open Sys2Proof.Laws.Memory Sys2Proof.Laws.Ops Sys2Proof.Laws.IndexMemory Sys2Proof.Laws.Exec

variable {s t : State} {x r : Reg}

/-! ### The index register -/

theorem toNat_add_zext16_byte (a : Word) (v : Byte) : (a + zext16 v).toNat = (a.toNat + v.toNat) % 65536 := by
  rw [BitVec.toNat_add, zext16, BitVec.toNat_setWidth_of_le (by decide)]

/-- Settles O31, by the number that each of the three leaves in I. -/
theorem indexLoads : Obligations.IndexLoads := fun s x nnn =>
  ⟨⟨_, rfl, toNat_addrOperand nnn, rfl⟩, ⟨_, rfl, toNat_add_zext16_byte s.I (s.getV x), rfl⟩,
    ⟨_, rfl, toNat_glyphAddr (s.getV x), rfl⟩⟩

/-- LD F leaves memory as it is, and I at the glyph (R167). -/
theorem readByte_indexAddr_of_exec_ldF (h : exec (.ldF x) s = .next t) (k : Nat) :
    t.readByte (indexAddr t k) = s.readByte ((s.getV x).toNat * 5 + k) := by
  obtain rfl := Host.Outcome.next.inj h
  rw [← toNat_glyphAddr]; rfl

/-- Settles O32: the five bytes at I lie in the font region, which reads as FONT. -/
theorem fontPointerReadsGlyph : Obligations.FontPointerReadsGlyph := by
  intro s t x k hfont hx hk h
  have hlt : (s.getV x).toNat * 5 + k < 80 := by omega
  refine ⟨hlt, ?_⟩
  rw [readByte_indexAddr_of_exec_ldF h, hfont _ hlt, Config.resetByte, dif_pos hlt]

/-! ### The reach of a store -/

theorem storeReaches_indexAddr {n j : Nat} (hj : j < n) (hin : inMem (indexAddr s j)) (hw : writable s.cfg (indexAddr s j)) :
    storeReaches s n (indexAddr s j) :=
  ⟨Nat.add_le_add_left (Nat.zero_le j) _, Nat.add_lt_add_left hj _, hin, hw⟩

/-- An address that a store reaches is that of one of its `n` bytes. -/
theorem exists_indexAddr_of_storeReaches {n a : Nat} (h : storeReaches s n a) :
    ∃ j, j < n ∧ indexAddr s j = a ∧ inMem a ∧ writable s.cfg a := by
  obtain ⟨hlo, hhi, hfree⟩ := h
  simp only [indexAddr] at hlo hhi ⊢
  exact ⟨a - s.I.toNat, by omega, by omega, hfree⟩

/-! ### LD B -/

theorem toNat_bcdDigit (v : Byte) : ∀ {j : Nat}, j < 3 →
    (bcdDigit v j).toNat = [v.toNat / 100, v.toNat / 10 % 10, v.toNat % 10].getD j 0
  | 0, _ | 1, _ | 2, _ => by
    have := v.isLt
    simp [bcdDigit]; omega

theorem frame_of_exec_ldB (h : exec (.ldB x) s = .next t) : t = { s with pc := s.pc + 2, mem := t.mem } := by
  obtain rfl := Host.Outcome.next.inj h
  rw [execFrame_bcd]; rfl

/-- LD B leaves digit j at I + j (R169). -/
theorem readByte_indexAddr_of_exec_ldB (h : exec (.ldB x) s = .next t) (hm : Rising s.mem) {j : Nat} (hj : j < 3)
    (hin : inMem (indexAddr s j)) (hw : writable s.cfg (indexAddr s j)) :
    t.readByte (indexAddr s j) = bcdDigit (s.getV x) j := by
  rw [readByte_of_exec_ldB h hm, if_pos (storeReaches_indexAddr hj hin hw), indexAddr, Nat.add_sub_cancel_left]

/-- Settles O33, by what LD B leaves at each address, and the numbers of its digits. -/
theorem bcdStore : Obligations.BcdStore := by
  intro s x hm
  refine ⟨_, rfl, frame_of_exec_ldB rfl, fun j hj hin hw => ?_, fun a hkept => ?_⟩
  · rw [readByte_indexAddr_of_exec_ldB rfl hm.1 hj hin hw, toNat_bcdDigit _ hj]
  · refine (readByte_of_exec_ldB rfl hm.1 a).trans (if_neg fun hreach => ?_)
    obtain ⟨j, hj, ha, hfree⟩ := exists_indexAddr_of_storeReaches hreach
    exact hkept j hj ha hfree

/-! ### LD [I], Vx -/

theorem frame_of_exec_ldStore (h : exec (.ldStore x) s = .next t) : t = { s with pc := s.pc + 2, mem := t.mem } := by
  obtain rfl := Host.Outcome.next.inj h
  rw [storeRegs_frame]; rfl

/-- Settles O34, by what LD [I] leaves at each address. -/
theorem blockStore : Obligations.BlockStore := by
  intro s x hm
  refine ⟨_, rfl, frame_of_exec_ldStore rfl, fun r => readByte_indexAddr_of_exec_ldStore rfl hm.1, fun a hkept => ?_⟩
  refine (readByte_of_exec_ldStore rfl hm.1 a).trans (if_neg fun hreach => ?_)
  obtain ⟨j, hj, ha, hfree⟩ := exists_indexAddr_of_storeReaches hreach
  have hr : (regOf j).toNat = j := toNat_regOf (by omega)
  exact hkept (regOf j) (by omega) (by rwa [hr]) hfree

/-! ### LD Vx, [I] -/

theorem frame_of_exec_ldLoad (h : exec (.ldLoad x) s = .next t) : t = { s with pc := s.pc + 2, V := t.V } := by
  obtain rfl := Host.Outcome.next.inj h
  rw [loadRegs_frame]; rfl

/-- LD Vx, [I], register by register (R171). -/
theorem getV_of_exec_ldLoad (h : exec (.ldLoad x) s = .next t) (r : Reg) :
    t.getV r =
      if r.toNat ≤ x.toNat ∧ inMem (indexAddr s r.toNat) then s.readByte (indexAddr s r.toNat) else s.getV r := by
  obtain rfl := Host.Outcome.next.inj h
  rw [getV_advance, getV_loadRegs _ _ _ (by omega)]
  simp only [Nat.zero_le, true_and, Nat.zero_add, Nat.lt_succ_iff]

/-- Settles O35, by what LD Vx, [I] leaves in each register. -/
theorem blockLoad : Obligations.BlockLoad := fun _ _ => ⟨_, rfl, frame_of_exec_ldLoad rfl, getV_of_exec_ldLoad rfl⟩

/-! ### A store and the load that takes it back -/

/-- Settles O36: the load reads Vr's byte where the store left it, because memory and I are the same. -/
theorem storeThenLoadRestores : Obligations.StoreThenLoadRestores := by
  intro s t u w x hm hfree hstore hmem hcfg hI hload r hr
  obtain ⟨hin, hw⟩ := hfree r hr
  have hIs : u.I = s.I := by rw [hI, frame_of_exec_ldStore hstore]
  have haddr : indexAddr u r.toNat = indexAddr s r.toNat := indexAddr_congr hIs _
  calc w.getV r = u.readByte (indexAddr u r.toNat) := by
        rw [getV_of_exec_ldLoad hload, if_pos ⟨hr, haddr ▸ hin⟩]
    _ = t.readByte (indexAddr s r.toNat) := by rw [haddr, readByte_congr hcfg hmem]
    _ = s.getV r := readByte_indexAddr_of_exec_ldStore hstore hm.1 hr hin hw

end Sys2Proof.Proofs
end

section
/-! PROOFS of the statements about the display (`43_display.md`): CLS, the pixels and the flag of DRW, DRW as its own inverse, and
who writes FB. -/

namespace Sys2Proof.Proofs

open Sys2Proof.Machine Sys2Proof.Safety
open Sys2Proof.Laws.Ops Sys2Proof.Laws.Display Sys2Proof.Laws.Exec

variable {s t : State} {x y : Reg} {n : Nibble}

/-! ### CLS -/

/-- Settles O39: every pixel of the grid that CLS puts in FB is 0. -/
theorem clearDisplay : Obligations.ClearDisplay := fun _ => ⟨_, rfl, rfl, fun px py _ _ => pixel_replicate px py⟩

/-! ### DRW -/

theorem frame_of_exec_drw (h : exec (.drw x y n) s = .next t) : t = { s with pc := s.pc + 2, FB := t.FB, V := t.V } := by
  obtain rfl := Host.Outcome.next.inj h
  rfl

/-- DRW, pixel by pixel, with the collision that its drawing ends with (R182). -/
theorem drawn_of_exec_drw (h : exec (.drw x y n) s = .next t) :
    Drawn (s.FB, false) (t.FB, (drawSprite s x y n).2) (spriteCovers s x y n) := by
  obtain rfl := Host.Outcome.next.inj h
  exact drawn_drawSprite s x y n

/-- DRW, register by register: the collision in VF, the others kept (R182). -/
theorem getV_of_exec_drw (h : exec (.drw x y n) s = .next t) (r : Reg) :
    t.getV r = if r = vf then flagByte (drawSprite s x y n).2 else s.getV r := by
  obtain rfl := Host.Outcome.next.inj h
  exact getV_setV vf r _

theorem flagByte_eq_one_or_zero : ∀ f, flagByte f = 1 ∨ flagByte f = 0
  | true => .inl rfl
  | false => .inr rfl

theorem flagByte_eq_one_iff : ∀ {f}, flagByte f = 1 ↔ f = true
  | true => iff_of_true rfl rfl
  | false => iff_of_false (by decide) Bool.false_ne_true

/-- Settles O40: the drawing flips the covered pixels and gathers whether one was set, and VF is that collision as a byte. -/
theorem drawSpritePixels : Obligations.DrawSpritePixels := by
  intro s x y n
  have hdrawn := drawn_of_exec_drw (s := s) (x := x) (y := y) (n := n) rfl
  have hV := getV_of_exec_drw (s := s) (x := x) (y := y) (n := n) rfl
  have hflag := (hV vf).trans (if_pos rfl)
  refine ⟨_, rfl, frame_of_exec_drw rfl, hdrawn.flipped, hdrawn.kept, ?_, ?_, fun r hr => (hV r).trans (if_neg hr)⟩
  · rw [hflag]
    exact flagByte_eq_one_or_zero _
  · rw [hflag, flagByte_eq_one_iff]
    exact hdrawn.hit.trans (or_iff_right Bool.false_ne_true)

/-! ### Drawing twice -/

/-- The pixels that a sprite covers depend on Vx, Vy, n, I and the bytes of memory alone (R184). -/
theorem spriteCovers_congr {u : State} (hx : u.getV x = s.getV x) (hy : u.getV y = s.getV y) (hI : u.I = s.I)
    (hmem : ∀ a, u.readByte a = s.readByte a) : spriteCovers u x y n = spriteCovers s x y n := by
  funext px py
  simp only [spriteCovers, indexAddr, hx, hy, hI, hmem]

/-- Toggling the same pixels in two drawings, the second on the framebuffer of the first, leaves the framebuffer as before. -/
theorem fb_eq_of_drawn_twice {f g k : FrameBuffer} {b c b' c' : Bool} {P : Nat → Nat → Prop}
    (h1 : Drawn (f, b) (g, c) P) (h2 : Drawn (g, b') (k, c') P) : k = f := by
  refine fb_ext fun px py hx hy => ?_
  by_cases hP : P px py
  · calc pixel k px py = !pixel g px py := h2.flipped px py hx hy hP
      _ = !!pixel f px py := congrArg _ (h1.flipped px py hx hy hP)
      _ = pixel f px py := Bool.not_not _
  · exact (h2.kept px py hx hy hP).trans (h1.kept px py hx hy hP)

/-- Settles O41: the second drawing covers the same pixels, and starts from the framebuffer of the first. -/
theorem drawTwiceRestores : Obligations.DrawTwiceRestores := by
  intro s t u w x y n hfirst hFB hx hy hI hmem hsecond
  have h2 := drawn_of_exec_drw hsecond
  rw [hFB, spriteCovers_congr hx hy hI hmem] at h2
  exact fb_eq_of_drawn_twice (drawn_of_exec_drw hfirst) h2

/-! ### The writers of FB -/

theorem eq_cls_or_drw_of_FB_changed {i : Instr} (h : exec i s = .next t) (hne : t.FB ≠ s.FB) :
    i = .cls ∨ ∃ x y n, i = .drw x y n := by
  have hf := instrFrame_of_exec h
  cases i with
  | cls => exact .inl rfl
  | drw x y n => exact .inr ⟨x, y, n, rfl⟩
  | _ => simp only [InstrFrame] at hf; rw [hf] at hne; exact absurd rfl hne

/-- Settles O42, by the frame of each instruction, and by the cleared framebuffer that Reset puts in FB. -/
theorem onlyClsAndDrwWriteFB : Obligations.OnlyClsAndDrwWriteFB :=
  ⟨fun _ _ _ => eq_cls_or_drw_of_FB_changed, fun _ px py _ _ => pixel_replicate px py⟩

end Sys2Proof.Proofs
end

section
/-! PROOFS of the statements about keys and timers (`44_keys_timers.md`): the key skips, LD Vx, K in one cycle and over many, and the
timer instructions. -/

namespace Sys2Proof.Proofs

open Sys2Proof.Machine Sys2Proof.Safety
open Sys2Proof.Laws.Ops Sys2Proof.Laws.Cycle

variable {s : State} {x : Reg} {k : Keys}

/-! ### Key skips -/

theorem exec_skp (s : State) (x : Reg) : exec (.skp x) s = .next { s with
    pc := s.pc + if (s.getV x).toNat < 16 ∧ s.key.getLsbD (s.getV x).toNat = true then 4 else 2 } := by
  change Host.Outcome.next (s.skipIf (keyPressed s (s.getV x))) = _
  simp only [State.skipIf, State.setPc, keyPressed_eq, decide_eq_true_eq]

theorem exec_sknp (s : State) (x : Reg) : exec (.sknp x) s = .next { s with
    pc := s.pc + if (s.getV x).toNat < 16 ∧ s.key.getLsbD (s.getV x).toNat = true then 2 else 4 } := by
  change Host.Outcome.next (s.skipIf (!keyPressed s (s.getV x))) = _
  simp only [State.skipIf, State.setPc, keyPressed_eq, Bool.not_eq_true', decide_eq_false_iff_not, ite_not]

/-- Settles O43, by the test that the two skips share. -/
theorem keySkips : Obligations.KeySkips := fun s x => ⟨exec_skp s x, exec_sknp s x⟩

/-! ### LD Vx, K -/

theorem exec_ldVxK_of_none (h : s.lastPressed = none) (x : Reg) : exec (.ldVxK x) s = .next s := by
  simp only [exec, execLdVxK, h, State.hold]

theorem exec_ldVxK_of_some {j : Fin 16} (h : s.lastPressed = some j) (x : Reg) :
    exec (.ldVxK x) s = .next (s.setV x (keyNumber j)).advance := by
  simp only [exec, execLdVxK, h]

theorem toNat_keyNumber (j : Fin 16) : (keyNumber j).toNat = j.val := by
  simp only [keyNumber, BitVec.toNat_ofNat]
  omega

/-- Settles O44, by the two cases of LD Vx, K. -/
theorem keyWaitInstruction : Obligations.KeyWaitInstruction := fun s x =>
  ⟨fun hnone => exec_ldVxK_of_none hnone x,
    fun j hsome => ⟨_, exec_ldVxK_of_some hsome x,
      (congrArg BitVec.toNat (getV_setV_self s x (keyNumber j))).trans (toNat_keyNumber j),
      fun _ => getV_setV_of_ne s _, rfl⟩⟩

/-! ### Waiting for a key -/

/-- The core runs, and the instruction at pc is LD Vx, K. -/
structure AtKeyWait (x : Reg) (s : State) : Prop where
  running : s.faulted = false
  fetchable : s.pc.toNat ≤ 0xFFE
  word : s.fetch = encode (.ldVxK x)

theorem AtKeyWait.cycle_eq {u : State} (h : AtKeyWait x s) (hu : exec (.ldVxK x) (s.sampleInput k) = .next u) :
    cycle k s = .next (u.appendRecord s.pc (some s.fetch) (recordKind (.ldVxK x))) := by
  have hd : decode s.cfg.strict59 s.fetch = .ok (.ldVxK x) := by rw [h.word]; exact decode_encode rfl
  obtain ⟨u', hu', hcycle⟩ := cycle_decoded (k := k) h.running h.fetchable hd
  obtain rfl := Host.Outcome.next.inj (hu'.symm.trans hu)
  exact hcycle

/-- A cycle with no key pressed holds, and the core is at the same LD Vx, K again (R202). -/
theorem AtKeyWait.cycle_no_key (h : AtKeyWait x s) :
    ∃ t, cycle 0 s = .next t ∧ t.pc = s.pc ∧ t.V = s.V ∧ AtKeyWait x t :=
  have hnone : (s.sampleInput 0).lastPressed = none := lowestKey_eq_none_iff_zero.2 rfl
  ⟨_, h.cycle_eq (exec_ldVxK_of_none hnone x), rfl, rfl, h.running, h.fetchable, h.word⟩

/-- Any number of cycles with no key pressed hold (R202). -/
theorem AtKeyWait.cyclesWith_no_keys (h : AtKeyWait x s) (n : Nat) :
    ∃ t, cyclesWith (List.replicate n 0) s = .next t ∧ t.pc = s.pc ∧ t.V = s.V ∧ AtKeyWait x t := by
  induction n generalizing s with
  | zero => exact ⟨s, rfl, rfl, rfl, h⟩
  | succ n ih =>
    obtain ⟨u, hfirst, hpc, hV, hu⟩ := h.cycle_no_key
    obtain ⟨t, hrest, hpc', hV', ht⟩ := ih hu
    refine ⟨t, ?_, hpc'.trans hpc, hV'.trans hV, ht⟩
    rw [List.replicate_succ, cyclesWith, hfirst, andThen_next, hrest]

/-- A cycle with a key pressed stores the lowest key's number and advances (R202). -/
theorem AtKeyWait.cycle_key (h : AtKeyWait x s) {j : Fin 16} (hj : lowestKey k = some j) :
    ∃ u, cycle k s = .next u ∧ u.pc = s.pc + 2 ∧ (u.getV x).toNat = j.val ∧ ∀ r, r ≠ x → u.getV r = s.getV r :=
  ⟨_, h.cycle_eq (exec_ldVxK_of_some hj x), rfl,
    (congrArg BitVec.toNat (getV_setV_self (s.sampleInput k) x (keyNumber j))).trans (toNat_keyNumber j),
    fun _ => getV_setV_of_ne (s.sampleInput k) _⟩

/-- Settles O45, by induction on the cycles without a key, and by what the cycle with a key stores. -/
theorem keyWaitHoldsUntilKey : Obligations.KeyWaitHoldsUntilKey := by
  intro s x n k hf hpc hword hk
  obtain ⟨t, hwait, htpc, htV, ht⟩ := AtKeyWait.cyclesWith_no_keys ⟨hf, hpc, hword⟩ n
  obtain ⟨j, hj⟩ := Option.ne_none_iff_exists'.1 (mt lowestKey_eq_none_iff_zero.1 hk)
  obtain ⟨hpressed, hlowest⟩ := lowestKey_some hj
  obtain ⟨u, hu, hupc, hux, hur⟩ := ht.cycle_key hj
  refine ⟨t, u, hwait, htpc, htV, hu, htpc ▸ hupc, ?_, ?_, ?_, fun r hr => (hur r hr).trans (getV_congr htV r)⟩
  · exact hux ▸ j.isLt
  · exact hux ▸ hpressed
  · exact hux ▸ hlowest

/-! ### Timer instructions -/

/-- Settles O46: a register write for LD Vx, DT, and one timer's write for each of the others. -/
theorem timerInstructions : Obligations.TimerInstructions := fun s x =>
  ⟨⟨_, rfl, getV_setV_self s x s.DT, fun _ => getV_setV_of_ne s _, rfl⟩, rfl, rfl⟩

end Sys2Proof.Proofs
end

section
/-! PROOFS of the statements about the timing controller and the host (`60_exceptions.md`): the tick, the host's actions, LoadProgram,
the record of a cycle, the cut of frames and Step requests into steps, and the faulted block. -/

namespace Sys2Proof.Proofs

open Sys2Proof.Machine Sys2Proof.Safety
open Sys2Proof.Laws.Memory Sys2Proof.Laws.Ops Sys2Proof.Laws.Exec Sys2Proof.Laws.Cycle

variable {i : Instr} {s t : State}

/-! ### Steps as transitions of the timing controller -/

/-- Settles O11, by where the timing controller stands. -/
theorem stepCompletesUnlessClosed : Obligations.StepCompletesUnlessClosed := by
  refine fun s => ⟨fun hopen => ?_, fun hclosed => if_pos hclosed⟩
  rw [step_of_open hopen]
  cases s.phase with
  | frame left => exact frameStep_next left s
  | stepping left => exact steppingStep_next left s
  | boundary => exact boundaryStep_next s

/-- At a boundary a step takes the oldest pending action (R219). -/
theorem step_of_pending {a : HostAction} {r : List HostAction} (hc : s.closed = false) (hp : s.phase = .boundary)
    (ha : s.hostActions = a :: r) : step s = applyAction a (withPending s r) := by
  rw [step_of_open hc, hp]
  simp only [boundaryStep, ha]; rfl

/-- A Paused block at a boundary with nothing pending stays as it is (log 11). -/
theorem step_of_idle (hc : s.closed = false) (hp : s.phase = .boundary) (ha : s.hostActions = [])
    (hr : s.runState = .paused) : step s = .next s := by
  rw [step_of_open hc, hp]
  simp only [boundaryStep, ha, hr]

/-! ### What the host holds through a frame and a Step request -/

/-- `t` has the pending actions, the run state and the frequency of `s`. -/
def SameHost (s t : State) : Prop :=
  t.hostActions = s.hostActions ∧ t.runState = s.runState ∧ t.instrFreq = s.instrFreq

/-- `t` has of `s` what the schedule rests on: the host's side, the configuration and the counters. -/
structure SameSchedule (s t : State) : Prop where
  host : SameHost s t
  closed : t.closed = s.closed
  cfg : t.cfg = s.cfg
  stepCount : t.stepCount = s.stepCount
  drawFrames : t.drawFrames = s.drawFrames

theorem sameSchedule_of_runCycle (h : runCycle s = .next t) : SameSchedule s t := by
  obtain ⟨u, hu, hf⟩ := runCycle_frame s
  obtain rfl := Host.Outcome.next.inj (hu.symm.trans h)
  rw [hf]; exact ⟨⟨rfl, rfl, rfl⟩, rfl, rfl, rfl, rfl⟩

theorem SameSchedule.stepCountBounded (h : SameSchedule s t) (hb : stepCountBounded s) : stepCountBounded t := by
  unfold Safety.stepCountBounded; rw [h.cfg, h.stepCount]; exact hb

theorem SameHost.afterFrameCycle (h : SameHost s t) (left : Nat) : SameHost s (afterFrameCycle left t) := by
  rw [afterFrameCycle_frame]; exact h

theorem SameHost.afterStepCycle (h : SameHost s t) (left : Nat) : SameHost s (afterStepCycle left t) := by
  rw [afterStepCycle_frame]; exact h

theorem sameHost_of_frameStep {left : Nat} (h : frameStep left s = .next t) : SameHost s t := by
  cases left with
  | zero => obtain rfl := Host.Outcome.next.inj h; exact ⟨rfl, rfl, rfl⟩
  | succ k =>
    rw [frameStep_succ] at h
    obtain ⟨u, hu, ht⟩ := andThen_eq_next h
    obtain rfl := Host.Outcome.next.inj ht
    exact (sameSchedule_of_runCycle hu).host.afterFrameCycle (k + 1)

theorem sameHost_of_steppingStep {left : Nat} (h : steppingStep left s = .next t) : SameHost s t := by
  cases left with
  | zero => obtain rfl := Host.Outcome.next.inj h; exact ⟨rfl, rfl, rfl⟩
  | succ k =>
    rw [steppingStep_succ] at h
    obtain ⟨u, hu, ht⟩ := andThen_eq_next h
    obtain rfl := Host.Outcome.next.inj ht
    exact (sameSchedule_of_runCycle hu).host.afterStepCycle (k + 1)

/-- No action adds a pending action or takes one away. -/
theorem applyAction_hostActions {a : HostAction} (h : applyAction a s = .next t) : t.hostActions = s.hostActions := by
  cases a with
  | frame =>
    simp only [applyAction] at h
    split at h
    · exact (sameHost_of_frameStep h).1
    · rw [Host.Outcome.next.inj h]
  | step count =>
    simp only [applyAction] at h
    split at h
    · rw [Host.Outcome.next.inj h]
    · exact (sameHost_of_steppingStep h).1
  | loadProgram src => rw [← Host.Outcome.next.inj h, loadProgram_frame]; rfl
  | elapse n => rw [← Host.Outcome.next.inj h, elapse_frame]
  | _ => rw [← Host.Outcome.next.inj h]; rfl

/-- Inside a frame or a Step request the host's pending actions wait (R219, D41). -/
theorem sameHost_of_inside (h : step s = .next t) (hp : s.phase ≠ .boundary) : SameHost s t := by
  rw [step_of_open (open_of_next h)] at h
  split at h
  · exact sameHost_of_frameStep h
  · exact sameHost_of_steppingStep h
  · next hb => exact absurd hb hp

/-- Settles O52: inside a frame or a Step request nothing of the host's moves; at a boundary the step is the oldest action, or
idle (log 6, 11). -/
theorem hostActionsAtBoundaries : Obligations.HostActionsAtBoundaries := by
  refine fun s t h => ⟨sameHost_of_inside h, fun a r hp ha => ?_, fun hp ha hr => ?_⟩
  · have happly : applyAction a (withPending s r) = .next t := (step_of_pending (open_of_next h) hp ha).symm.trans h
    exact ⟨happly, applyAction_hostActions happly⟩
  · exact Host.Outcome.next.inj (h.symm.trans (step_of_idle (open_of_next h) hp ha hr))

/-! ### Host actions that run no cycle -/

/-- At a boundary the return to the boundary changes nothing. -/
theorem setPhase_boundary (hp : s.phase = .boundary) : s.setPhase .boundary = s := by
  rw [State.setPhase, ← hp]

theorem elapse_running (hr : s.runState = .running) (n : Nat) : s.elapse n = { s with accum := s.accum + n } := by
  simp only [State.elapse, hr]

theorem elapse_paused (hr : s.runState = .paused) (n : Nat) : s.elapse n = s := by
  simp only [State.elapse, hr]

theorem toggle_eq (r : RunState) : r.toggle = if r = .running then .paused else .running := by
  cases r <;> rfl

theorem applyAction_step_paused (hr : s.runState = .paused) (n : Nat) :
    applyAction (.step n) s = steppingStep n s := by
  simp only [applyAction, hr]

/-- Settles O51, action by action. -/
theorem hostActions : Obligations.HostActions := by
  intro s n
  refine ⟨?_, rfl, fun hr => ?_, fun hr => ?_, fun hr hp => ?_, rfl, fun hr => ?_, fun hr => ?_⟩
  · rw [← toggle_eq]; rfl
  · simp only [applyAction, hr]
  · simp only [applyAction, hr]
  · rw [applyAction_step_paused hr, steppingStep, setPhase_boundary hp]
  · rw [← elapse_running hr]; rfl
  · exact congrArg Host.Outcome.next (elapse_paused hr n)

/-! ### LoadProgram -/

theorem applyAction_loadProgram_of_rejected {src : Option (List Byte)} (h : loadable src = none) (s : State) :
    applyAction (.loadProgram src) s = .next { s.hostReset with hostResult := .loadError } := by
  simp only [applyAction, State.loadProgram, loadResult, h]

theorem applyAction_loadProgram_of_loadable {src : Option (List Byte)} {b : List Byte} (h : loadable src = some b)
    (s : State) : applyAction (.loadProgram src) s =
      .next { s.hostReset with mem := Memory.writeAll s.cfg progBase b [], hostResult := .none } := by
  simp only [applyAction, State.loadProgram, loadResult, h]

theorem loadable_of_long {b : List Byte} (h : b.length > progMax) : loadable (some b) = none := if_pos h

theorem loadable_of_short {b : List Byte} (h : b.length ≤ progMax) : loadable (some b) = some b := if_neg (Nat.not_lt.2 h)

/-- Settles O8, by what LoadProgram does with a rejected and with an accepted source. -/
theorem loadProgramEffect : Obligations.LoadProgramEffect := by
  refine fun s => ⟨applyAction_loadProgram_of_rejected rfl s, fun b => ⟨fun hlong => ?_, fun hshort => ?_⟩⟩
  · exact applyAction_loadProgram_of_rejected (loadable_of_long hlong) s
  · have hread := read_writeAll (c := s.cfg) b progBase [] List.Pairwise.nil
    refine ⟨_, applyAction_loadProgram_of_loadable (loadable_of_short hshort) s, rfl, ?_, fun k hk => ?_, fun a ha => ?_⟩
    · exact writeAll_wf b progBase [] (nil_wf _) (by simp only [progBase, memSize]; omega)
    · refine (hread (0x200 + k)).trans ?_
      rw [dif_pos (by simp only [progBase]; omega)]
      simp only [progBase, Nat.add_sub_cancel_left]
    · exact (hread a).trans (dif_neg (by simp only [progBase]; omega))

/-! ### The record of a cycle -/

/-- A well-formed instruction reports what R210 and R219 give it, in a cycle that has reported nothing before. -/
theorem exec_event (h : exec i s = .next t) (hw : i.wellFormed s.cfg.strict59 = true) (hs : s.event = .none) :
    t.event = reportedCondition i s := by
  have hf := instrFrame_of_exec h
  cases i with
  | ret =>
    obtain rfl := Host.Outcome.next.inj h
    simp only [reportedCondition]
    split
    · split <;> rfl
    · exact hs
  | call nnn =>
    obtain rfl := Host.Outcome.next.inj h
    simp only [reportedCondition]
    split
    · rfl
    · exact hs
  | sys nnn => obtain rfl := Host.Outcome.next.inj h; rfl
  | seReg x y n | sneReg x y n =>
    obtain rfl := Host.Outcome.next.inj h
    rw [if_neg]
    · exact hs
    · rintro ⟨hstrict, hn⟩
      simp [Instr.wellFormed, hstrict, hn] at hw
  | _ => simp only [InstrFrame] at hf; rw [hf]; exact hs

theorem reportedCondition_congr {u : State} (h : u.SP = s.SP) (i : Instr) :
    reportedCondition i u = reportedCondition i s := by
  unfold reportedCondition; rw [h]

theorem recordKind_of_ne_sys (h : ∀ nnn, i ≠ .sys nnn) : recordKind i = .row i.row := by
  cases i with
  | sys nnn => exact absurd rfl (h nnn)
  | _ => rfl

/-- Settles O16, by what a cycle of a core that is not faulted can do. -/
theorem cycleLogsOneRecord : Obligations.CycleLogsOneRecord := by
  intro s k hf
  obtain ⟨t, ht⟩ := cycle_next k s
  cases cycleCase_of_cycle ht with
  | faulted hf' => rw [hf] at hf'; cases hf'
  | fetchFault _ hpc htu =>
    exact ⟨t, ⟨s.pc, none, .fetchFault, .fetchFault⟩, ht, htu ▸ rfl, rfl, fun _ => ⟨rfl, rfl, rfl⟩, fun hpc' => by omega⟩
  | undefined e _ hpc hd htu =>
    refine ⟨t, ⟨s.pc, some s.fetch, .undefined, .undefinedOpcode⟩, ht, htu ▸ rfl, rfl, fun hpc' => by omega,
      fun _ => ⟨rfl, fun _ _ => ⟨rfl, rfl⟩, fun i hi => ?_⟩⟩
    rw [hd] at hi; cases hi
  | executed i u _ hpc hd hu htu =>
    have hw : i.wellFormed (s.sampleInput k).cfg.strict59 = true := (encodeOfDecode _ _ _ hd).2
    have hevent : u.event = reportedCondition i s :=
      (exec_event hu hw rfl).trans (reportedCondition_congr rfl i)
    refine ⟨t, ⟨s.pc, some s.fetch, recordKind i, u.event⟩, ht, ?_, rfl, fun hpc' => by omega, fun _ => ⟨rfl, ?_, ?_⟩⟩
    · rw [htu, execFrame_of_exec hu]; rfl
    · intro e he; rw [hd] at he; cases he
    · intro j hj
      obtain rfl := Except.ok.inj (hd.symm.trans hj)
      exact ⟨hevent, recordKind_of_ne_sys, fun ⟨nnn, hi⟩ => hi ▸ rfl⟩

/-! ### Ticks -/

theorem toNat_countDown (v : Byte) : (countDown v).toNat = v.toNat - 1 := by
  unfold countDown
  split <;> bv_omega

/-- Settles O47: both timers count down alike. -/
theorem tickEffect : Obligations.TickEffect := fun s =>
  ⟨toNat_countDown s.DT, toNat_countDown s.ST, decide_eq_true_iff, rfl⟩

/-- Ticks count both timers down, each tick by one. -/
theorem iterate_tick_timers (s : State) (k : Nat) :
    (State.tick^[k] s).ST.toNat = s.ST.toNat - k ∧ (State.tick^[k] s).DT.toNat = s.DT.toNat - k := by
  induction k with
  | zero => exact ⟨rfl, rfl⟩
  | succ k ih =>
    obtain ⟨hST, hDT⟩ := ih
    rw [Function.iterate_succ_apply', Laws.State.tick_ST, Laws.State.tick_DT, toNat_countDown, toNat_countDown, hST, hDT]
    exact ⟨Nat.sub_sub _ _ _, Nat.sub_sub _ _ _⟩

/-- Settles O48, by induction on the ticks; the last of them sets tone. -/
theorem toneFollowsTicks : Obligations.ToneFollowsTicks := by
  intro s k
  obtain ⟨hST, hDT⟩ := iterate_tick_timers s (k + 1)
  refine ⟨hST, hDT, ?_⟩
  have htone : (State.tick^[k + 1] s).tone = true ↔ (State.tick^[k + 1] s).ST.toNat > 0 := by
    rw [Function.iterate_succ_apply']
    exact decide_eq_true_iff
  rw [htone, hST]
  omega

/-! ### Cycles do not depend on the phase -/

theorem exec_setPhase (h : exec i s = .next t) (p : Phase) : exec i (s.setPhase p) = .next (t.setPhase p) := by
  obtain ⟨hex, -, -⟩ := instructionsIgnoreController i s (s.setPhase p) t h
  refine Eq.trans hex (congrArg Host.Outcome.next ?_)
  rw [execFrame_of_exec h]; rfl

theorem cycle_setPhase {k : Keys} (h : cycle k s = .next t) (p : Phase) : cycle k (s.setPhase p) = .next (t.setPhase p) := by
  cases cycleCase_of_cycle h with
  | faulted hf ht => rw [ht]; exact cycle_faulted (s := s.setPhase p) hf k
  | fetchFault hf hpc ht => rw [ht]; exact cycle_fetchFault (s := s.setPhase p) hf hpc
  | undefined e hf hpc hd ht => rw [ht]; exact cycle_undefined (s := s.setPhase p) hf hpc hd
  | executed i u hf hpc hd hu ht =>
    obtain ⟨v, hv, hc⟩ := cycle_decoded (s := s.setPhase p) (k := k) hf hpc hd
    obtain rfl := Host.Outcome.next.inj (hv.symm.trans (exec_setPhase hu p))
    rw [ht]; exact hc

theorem dropKeys_setPhase (s : State) (p : Phase) : (s.setPhase p).dropKeys = s.dropKeys.setPhase p := by
  unfold State.dropKeys State.setPhase
  cases s.keyInputs <;> rfl

theorem runCycle_setPhase (h : runCycle s = .next t) (p : Phase) : runCycle (s.setPhase p) = .next (t.setPhase p) := by
  unfold runCycle
  rw [dropKeys_setPhase]
  exact cycle_setPhase h p

theorem countStepped_setPhase (s : State) (p : Phase) : (s.setPhase p).countStepped = s.countStepped.setPhase p := by
  unfold State.countStepped
  rw [apply_ite (State.setPhase · p)]; rfl

theorem runCycles_setPhase (p : Phase) (n : Nat) (h : runCycles n s = .next t) :
    runCycles n (s.setPhase p) = .next (t.setPhase p) := by
  induction n generalizing s with
  | zero => obtain rfl := Host.Outcome.next.inj h; rfl
  | succ n ih =>
    obtain ⟨u, hu, ht⟩ := andThen_eq_next h
    rw [runCycles, runCycle_setPhase hu, andThen_next, ih ht]

theorem runStepped_setPhase (p : Phase) (n : Nat) (h : runStepped n s = .next t) :
    runStepped n (s.setPhase p) = .next (t.setPhase p) := by
  induction n generalizing s with
  | zero => obtain rfl := Host.Outcome.next.inj h; rfl
  | succ n ih =>
    obtain ⟨u, hu, ht⟩ := andThen_eq_next h
    rw [runStepped, runCycle_setPhase hu, andThen_next, countStepped_setPhase, ih ht]

/-! ### Frames and Step requests as runs of steps -/

theorem runCycles_next (n : Nat) (s : State) : ∃ t, runCycles n s = .next t := by
  induction n generalizing s with
  | zero => exact ⟨s, rfl⟩
  | succ n ih =>
    obtain ⟨u, hu⟩ := runCycle_next s
    rw [runCycles, hu]
    exact ih u

theorem runStepped_next (n : Nat) (s : State) : ∃ t, runStepped n s = .next t := by
  induction n generalizing s with
  | zero => exact ⟨s, rfl⟩
  | succ n ih =>
    obtain ⟨u, hu⟩ := runCycle_next s
    rw [runStepped, hu]
    exact ih u.countStepped

/-- A run begins with a step, and goes on from where that ends. -/
theorem run_succ {M : Host.Core} {s u : M.State} (h : M.step s = .next u) (n : Nat) : M.run (n + 1) s = M.run n u := by
  rw [Host.Core.run, h]

/-- The steps of a frame of n + 1 cycles, from one that begins it: the cycles, then the frame's end (R230). -/
theorem run_frameSteps (n : Nat) (hc : s.closed = false) (hstep : step s = frameStep (n + 1) s)
    (h : runCycles (n + 1) s = .next t) : core.run (n + 1) s = .next (t.finishFrame.setPhase .boundary) := by
  induction n generalizing s t with
  | zero =>
    obtain ⟨u, hu, ht⟩ := andThen_eq_next h
    obtain rfl := Host.Outcome.next.inj ht
    rw [frameStep_succ, hu, andThen_next] at hstep
    exact run_succ (M := core) hstep 0
  | succ n ih =>
    obtain ⟨u, hu, ht⟩ := andThen_eq_next h
    have hc' : u.closed = false := (sameSchedule_of_runCycle hu).closed.trans hc
    rw [frameStep, hu, andThen_next] at hstep
    exact (run_succ (M := core) hstep (n + 1)).trans
      (ih (t := t.setPhase (.frame (n + 1))) hc' (step_of_frame_due hc' (.inl rfl))
        (runCycles_setPhase (.frame (n + 1)) (n + 1) ht))

/-- The steps of a Step request of n + 1 cycles, likewise; `v` is the state in which the request begins (R232). -/
theorem run_stepSteps {v : State} (n : Nat) (hc : v.closed = false) (hstep : step s = steppingStep (n + 1) v)
    (h : runStepped (n + 1) v = .next t) : core.run (n + 1) s = .next (t.setPhase .boundary) := by
  induction n generalizing s v t with
  | zero =>
    obtain ⟨u, hu, ht⟩ := andThen_eq_next h
    obtain rfl := Host.Outcome.next.inj ht
    rw [steppingStep, hu, andThen_next] at hstep
    exact run_succ (M := core) hstep 0
  | succ n ih =>
    obtain ⟨u, hu, ht⟩ := andThen_eq_next h
    have hc' : u.countStepped.closed = false := by
      rw [countStepped_frame]; exact (sameSchedule_of_runCycle hu).closed.trans hc
    rw [steppingStep, hu, andThen_next] at hstep
    exact (run_succ (M := core) hstep (n + 1)).trans
      (ih (v := u.countStepped.setPhase (.stepping (n + 1))) (t := t.setPhase (.stepping (n + 1))) hc' (step_of_open hc')
        (runStepped_setPhase (.stepping (n + 1)) (n + 1) ht))

/-- A frame is its steps, one at least (R230). -/
theorem run_frame (n : Nat) (hc : s.closed = false) (hstep : step s = frameStep n s)
    (h : runCycles n s = .next t) : core.run (max 1 n) s = .next (t.finishFrame.setPhase .boundary) := by
  cases n with
  | zero => obtain rfl := Host.Outcome.next.inj h; exact run_succ (M := core) hstep 0
  | succ n => rw [Nat.max_eq_right (by omega)]; exact run_frameSteps n hc hstep h

/-- A Step request is its steps, one at least (R232). -/
theorem run_stepRequest {v : State} (n : Nat) (hc : v.closed = false) (hstep : step s = steppingStep n v)
    (h : runStepped n v = .next t) : core.run (max 1 n) s = .next (t.setPhase .boundary) := by
  cases n with
  | zero => obtain rfl := Host.Outcome.next.inj h; exact run_succ (M := core) hstep 0
  | succ n => rw [Nat.max_eq_right (by omega)]; exact run_stepSteps n hc hstep h

theorem stepRequest_paused (hr : s.runState = .paused) (n : Nat) : stepRequest n s = runStepped n s := by
  simp only [stepRequest, hr]

/-- Settles O54: the frame's cycles, begun at a boundary, end at one. -/
theorem stepsMakeFrame : Obligations.StepsMakeFrame := by
  intro s hc hp ha hr
  obtain ⟨t, ht⟩ := runCycles_next s.instrFreq s
  have hstep : step s = frameStep s.instrFreq s := step_of_frame_due hc (.inr ⟨hp, ha, hr, rfl⟩)
  have hboundary : t.setPhase .boundary = t := by
    have hphase := runCycles_setPhase .boundary s.instrFreq ht
    rw [setPhase_boundary hp, ht] at hphase
    exact (Host.Outcome.next.inj hphase).symm
  refine ⟨t.finishFrame, by rw [frame, ht, andThen_next], rfl, (run_frame _ hc hstep ht).trans ?_⟩
  exact congrArg (fun u => Host.Outcome.next (State.finishFrame u)) hboundary

/-- Settles O55: the request's cycles, begun at a boundary, end at one. -/
theorem stepsMakeStepRequest : Obligations.StepsMakeStepRequest := by
  intro s count rest hc hp ha hr
  obtain ⟨t, ht⟩ := runStepped_next count (withPending s rest)
  have hstep : step s = steppingStep count (withPending s rest) :=
    (step_of_pending hc hp ha).trans (applyAction_step_paused (s := withPending s rest) hr count)
  have hboundary : t.setPhase .boundary = t := by
    have hphase := runStepped_setPhase .boundary count ht
    rw [setPhase_boundary (s := withPending s rest) hp, ht] at hphase
    exact (Host.Outcome.next.inj hphase).symm
  exact ⟨t, (stepRequest_paused (s := withPending s rest) hr count).trans ht,
    (run_stepRequest count (v := withPending s rest) hc hstep ht).trans (congrArg Host.Outcome.next hboundary)⟩

/-! ### Counting stepped cycles -/

/-- A count taken in two parts, the second from the first's remainder. -/
theorem div_add_mod_add_div (a n T : Nat) (hT : 0 < T) : a / T + (a % T + n) / T = (a + n) / T := by
  conv_rhs => rw [← Nat.div_add_mod a T, Nat.add_assoc, Nat.mul_add_div hT]

/-- The bookkeeping of one stepped cycle, and the count and ticks of n more after it: a stepped cycle in the range of stepCount
stays in it, and the ticks add up (R40, R232). -/
theorem countStepped_then (hb : stepCountBounded s) (n : Nat) :
    stepCountBounded s.countStepped ∧
    (s.countStepped.stepCount + n) % s.countStepped.cfg.stepTickInterval =
      (s.stepCount + (n + 1)) % s.cfg.stepTickInterval ∧
    (s.stepCount + 1) / s.cfg.stepTickInterval +
      (s.countStepped.stepCount + n) / s.countStepped.cfg.stepTickInterval =
      (s.stepCount + (n + 1)) / s.cfg.stepTickInterval := by
  have hT : 0 < s.cfg.stepTickInterval := Nat.zero_lt_of_lt hb
  have hcfg : s.countStepped.cfg = s.cfg := by rw [countStepped_frame]
  obtain ⟨hcount, -⟩ := countStepped_counts hb
  unfold stepCountBounded
  rw [hcfg, hcount, Nat.mod_add_mod, div_add_mod_add_div _ _ _ hT, Nat.add_assoc, Nat.add_comm 1 n]
  exact ⟨Nat.mod_lt _ hT, rfl, rfl⟩

theorem runStepped_counts (n : Nat) (hb : stepCountBounded s) (h : runStepped n s = .next t) :
    t.stepCount = (s.stepCount + n) % s.cfg.stepTickInterval ∧
    t.drawFrames = s.drawFrames + (s.stepCount + n) / s.cfg.stepTickInterval := by
  induction n generalizing s with
  | zero =>
    obtain rfl := Host.Outcome.next.inj h
    exact ⟨(Nat.mod_eq_of_lt hb).symm, by rw [Nat.add_zero, Nat.div_eq_of_lt hb, Nat.add_zero]⟩
  | succ n ih =>
    obtain ⟨u, hu, ht⟩ := andThen_eq_next h
    have hcycle := sameSchedule_of_runCycle hu
    have hbu := hcycle.stepCountBounded hb
    obtain ⟨-, -, -, -, hfirst⟩ := countStepped_counts hbu
    obtain ⟨hbu', hmod, hdiv⟩ := countStepped_then hbu n
    obtain ⟨hrest, hdrawRest⟩ := ih hbu' ht
    rw [hrest, hmod, hdrawRest, hfirst, Nat.add_assoc, hdiv, hcycle.cfg, hcycle.stepCount, hcycle.drawFrames]
    exact ⟨rfl, rfl⟩

/-- Settles O56, by induction on the stepped cycles. -/
theorem steppedCyclesTick : Obligations.SteppedCyclesTick := by
  intro s n _ hb
  obtain ⟨t, ht⟩ := runStepped_next n s
  exact ⟨t, ht, runStepped_counts n hb ht⟩

/-! ### The faulted block -/

theorem runCycles_faulted (n : Nat) (hf : s.faulted = true) (h : runCycles n s = .next t) :
    t = { s with keyInputs := t.keyInputs, freeIndex := t.freeIndex } := by
  induction n generalizing s with
  | zero => obtain rfl := Host.Outcome.next.inj h; rfl
  | succ n ih =>
    rw [runCycles, runCycle_faulted hf, andThen_next] at h
    have ht := ih (by rw [dropKeys_frame]; exact hf) h
    rw [ht, dropKeys_frame]

/-- A stepped cycle of a faulted core keeps the fault. -/
theorem faulted_countStepped_dropKeys (hf : s.faulted = true) : s.dropKeys.countStepped.faulted = true := by
  rw [countStepped_frame, dropKeys_frame]; exact hf

theorem runStepped_faulted_succ (n : Nat) (hf : s.faulted = true) :
    runStepped (n + 1) s = runStepped n s.dropKeys.countStepped := by
  rw [runStepped, runCycle_faulted hf, andThen_next]

/-- The stepped cycles of a faulted core change nothing but what their bookkeeping writes, and the key vectors taken. -/
theorem runStepped_faulted_frame (n : Nat) (hf : s.faulted = true) (h : runStepped n s = .next t) : t =
    { s with
      DT := t.DT, ST := t.ST, tone := t.tone, drawFrames := t.drawFrames, stepCount := t.stepCount
      keyInputs := t.keyInputs, freeIndex := t.freeIndex } := by
  induction n generalizing s with
  | zero => obtain rfl := Host.Outcome.next.inj h; rfl
  | succ n ih =>
    rw [runStepped_faulted_succ n hf] at h
    have ht := ih (faulted_countStepped_dropKeys hf) h
    rw [ht, countStepped_frame, dropKeys_frame]

/-- `t` has the timers and tone of `s`. -/
def SameTimers (s t : State) : Prop := t.DT = s.DT ∧ t.ST = s.ST ∧ t.tone = s.tone

theorem SameTimers.iterate_tick (h : SameTimers s t) (k : Nat) : SameTimers (State.tick^[k] s) (State.tick^[k] t) := by
  obtain ⟨hDT, hST, htone⟩ := h
  exact iterate_tick_congr hDT hST htone k

theorem SameTimers.trans {u : State} (h : SameTimers s t) (h' : SameTimers t u) : SameTimers s u := by
  obtain ⟨hDT, hST, htone⟩ := h
  obtain ⟨hDT', hST', htone'⟩ := h'
  exact ⟨hDT'.trans hDT, hST'.trans hST, htone'.trans htone⟩

/-- The stepped cycles of a faulted core tick once for every STEP_TICK_INTERVAL of them (R232, R234). -/
theorem runStepped_faulted_timers (n : Nat) (hf : s.faulted = true) (hb : stepCountBounded s)
    (h : runStepped n s = .next t) :
    SameTimers (State.tick^[(s.stepCount + n) / s.cfg.stepTickInterval] s) t := by
  induction n generalizing s with
  | zero =>
    obtain rfl := Host.Outcome.next.inj h
    rw [Nat.add_zero, Nat.div_eq_of_lt hb]
    exact ⟨rfl, rfl, rfl⟩
  | succ n ih =>
    rw [runStepped_faulted_succ n hf] at h
    have hcycle := sameSchedule_of_runCycle (runCycle_faulted hf)
    have hdrop : SameTimers s s.dropKeys := by rw [dropKeys_frame]; exact ⟨rfl, rfl, rfl⟩
    have hbd := hcycle.stepCountBounded hb
    obtain ⟨-, hDT, hST, htone, -⟩ := countStepped_counts hbd
    have hfirst : SameTimers (State.tick^[(s.dropKeys.stepCount + 1) / s.dropKeys.cfg.stepTickInterval] s)
        s.dropKeys.countStepped := (hdrop.iterate_tick _).trans ⟨hDT, hST, htone⟩
    obtain ⟨hb', -, hdiv⟩ := countStepped_then hbd n
    rw [← hcycle.stepCount, ← hcycle.cfg, ← hdiv, Nat.add_comm (_ / _), Function.iterate_add_apply]
    exact (hfirst.iterate_tick _).trans (ih (faulted_countStepped_dropKeys hf) hb' h)

/-- Settles O13: cycles of a faulted core take their key vectors alone, and the bookkeeping counts and ticks as ever. -/
theorem faultedBlockOnlyTicks : Obligations.FaultedBlockOnlyTicks := by
  refine fun s hf => ⟨cycle_faulted hf, ?_, fun n => ?_⟩
  · obtain ⟨t, ht⟩ := runCycles_next s.instrFreq s
    refine ⟨t.finishFrame, by rw [frame, ht, andThen_next], ?_⟩
    rw [runCycles_faulted _ hf ht]; rfl
  · obtain ⟨t, ht⟩ := runStepped_next n s
    refine ⟨t, ht, runStepped_faulted_frame n hf ht, fun _ hb => ?_⟩
    obtain ⟨hcount, hdraw⟩ := runStepped_counts n hb ht
    obtain ⟨hDT, hST, htone⟩ := runStepped_faulted_timers n hf hb ht
    exact ⟨hcount, hDT, hST, htone, hdraw⟩

end Sys2Proof.Proofs
end

section
/-! PROOFS of the statements about Reset (`70_reset_and_hazards.md`): what Reset and power-on set, the laws of Reset, and the block
that holds on empty memory. -/

namespace Sys2Proof.Proofs

open Sys2Proof.Machine Sys2Proof.Safety
open Sys2Proof.Laws.Memory Sys2Proof.Laws.Ops Sys2Proof.Laws.Display Sys2Proof.Laws.Cycle

variable {s : State} {k : Keys}

/-! ### Memory after a Reset -/

theorem resetByte_font (c : Config) {a : Nat} (h : a < 80) : c.resetByte a = c.font[a] := dif_pos h

theorem resetByte_above_font (c : Config) {a : Nat} (h : 80 ≤ a) : c.resetByte a = 0 := dif_neg (Nat.not_lt.2 h)

theorem readByte_hostReset (s : State) (a : Nat) : s.hostReset.readByte a = s.cfg.resetByte a := read_nil s.cfg a

theorem readByte_hostReset_font (s : State) {a : Nat} (h : a < 80) : s.hostReset.readByte a = s.cfg.font[a] :=
  (readByte_hostReset s a).trans (resetByte_font s.cfg h)

theorem readByte_hostReset_above_font (s : State) {a : Nat} (h : 80 ≤ a) : s.hostReset.readByte a = 0 :=
  (readByte_hostReset s a).trans (resetByte_above_font s.cfg h)

/-! ### Cycles on empty memory -/

/-- A cycle that fetches an undefined encoding, in group 0 or outside it, holds and reports it (R100). -/
theorem cycle_undefinedEncoding (hf : s.faulted = false) (hpc : s.pc.toNat ≤ 0xFFE)
    (hop : undefinedEncoding s.cfg.strict59 s.fetch) :
    cycle k s = .next ((s.sampleInput k).undefinedEncoding.appendRecord s.pc (some s.fetch) .undefined) := by
  rcases decode_of_undefinedEncoding hop with ⟨nnn, hd⟩ | ⟨e, hd⟩
  · obtain ⟨u, hu, hcycle⟩ := cycle_decoded (k := k) hf hpc hd
    obtain rfl := Host.Outcome.next.inj hu
    exact hcycle
  · exact cycle_undefined hf hpc hd

/-- The core runs at 0x200 on memory as after a Reset, with its timers at 0: what a block that was never loaded keeps. -/
structure AtEmptyMemory (s : State) : Prop where
  pc : s.pc = 0x0200
  mem : s.mem = []
  running : s.faulted = false
  DT : s.DT = 0
  ST : s.ST = 0

theorem atEmptyMemory_hostReset (s : State) : AtEmptyMemory s.hostReset := ⟨rfl, rfl, rfl, rfl, rfl⟩

/-- The two bytes at 0x200 are above the font, and read as 0 (R250). -/
theorem AtEmptyMemory.fetch_eq (h : AtEmptyMemory s) : s.fetch = 0x0000 := by
  have hbyte (a : Nat) (ha : 80 ≤ a) : s.readByte a = 0 := by
    rw [State.readByte, h.mem, read_nil, resetByte_above_font _ ha]
  have hpc : s.pc.toNat = 0x200 := congrArg BitVec.toNat h.pc
  rw [State.fetch, hpc, hbyte _ (by decide), hbyte _ (by decide)]
  rfl

theorem undefinedEncoding_zero (strict : Bool) : undefinedEncoding strict 0x0000 := .inl (by decide)

theorem AtEmptyMemory.cycle_eq (h : AtEmptyMemory s) :
    cycle k s = .next ((s.sampleInput k).undefinedEncoding.appendRecord 0x0200 (some 0x0000) .undefined) := by
  have hpc : s.pc.toNat ≤ 0xFFE := by rw [h.pc]; decide
  have hop : undefinedEncoding s.cfg.strict59 s.fetch := h.fetch_eq ▸ undefinedEncoding_zero _
  rw [cycle_undefinedEncoding h.running hpc hop, h.pc, h.fetch_eq]

/-- Each cycle on empty memory leaves the block where it was (R256). -/
theorem AtEmptyMemory.cycle_stays (h : AtEmptyMemory s) (k : Keys) :
    ∃ u, cycle k s = .next u ∧ u.cfg = s.cfg ∧ AtEmptyMemory u :=
  ⟨_, h.cycle_eq, rfl, h.pc, h.mem, h.running, h.DT, h.ST⟩

/-- Any number of cycles on empty memory, with any keys (R256). -/
theorem AtEmptyMemory.cyclesWith_stays (h : AtEmptyMemory s) (ks : List Keys) :
    ∃ t, cyclesWith ks s = .next t ∧ t.cfg = s.cfg ∧ AtEmptyMemory t := by
  induction ks generalizing s with
  | nil => exact ⟨s, rfl, rfl, h⟩
  | cons k ks ih =>
    obtain ⟨u, hfirst, hucfg, hu⟩ := h.cycle_stays k
    obtain ⟨t, hrest, htcfg, ht⟩ := ih hu
    refine ⟨t, ?_, htcfg.trans hucfg, ht⟩
    rw [cyclesWith, hfirst, andThen_next, hrest]

/-- Settles O9, by induction on the cycles that the reset block has run. -/
theorem emptyBlockHolds : Obligations.EmptyBlockHolds := by
  intro s ks k
  obtain ⟨t, hrun, hcfg, ht⟩ := (atEmptyMemory_hostReset s).cyclesWith_stays ks
  have hcap : t.cfg.logCapacity = s.cfg.logCapacity := congrArg Config.logCapacity hcfg
  refine ⟨t, _, rfl, hrun, ht.pc, ht.mem, ht.running, ht.DT, ht.ST, ht.cycle_eq, ht.pc, ?_⟩
  rw [← hcap]; rfl

/-! ### Power-on -/

/-- Settles O5: Reset writes to each element the value that power-on gives it. -/
theorem powerOnState : Obligations.PowerOnState := ⟨fun _ => ⟨rfl, rfl, rfl, rfl⟩, rfl⟩

theorem inv_powerOn {c : Config} (hc : c.wf) : Inv (State.powerOn c) where
  config := hc
  stackPointer := Nat.zero_le _
  returnAddresses := fun k hk => absurd hk (Nat.not_lt_zero k)
  pc := (by decide : (0x0200#16).toNat ≤ 0x10FE)
  memory := (memoryOk_hostReset (State.powerOn c)).1
  font := (memoryOk_hostReset (State.powerOn c)).2
  log := Nat.zero_le _
  logEvents := fun _ hr => absurd hr List.not_mem_nil
  stepCount := hc.2
  snapshot := lowestKey_none_iff.1 (lowestKey_eq_none_iff_zero.2 rfl)
  fault := rfl
  phase := trivial

theorem default_wf : Config.default.wf := ⟨Nat.le_add_left 1 _, (by decide : 1 ≤ 60)⟩

/-- Settles O59, by the invariant's fields at power-on. -/
theorem powerOnMeetsInvariant : Obligations.PowerOnMeetsInvariant := ⟨fun _ => inv_powerOn, inv_powerOn default_wf⟩

/-! ### Reset -/

theorem getV_hostReset (s : State) (r : Reg) : s.hostReset.getV r = 0 := Vector.getElem_replicate _

theorem slot_hostReset (s : State) {k : Nat} (h : k < 16) : s.hostReset.slot k = 0 :=
  (slot_eq h).trans (Vector.getElem_replicate _)

/-- Settles O6, by the fields of Reset, with memory, the registers, the stack and the screen read element by element. -/
theorem resetSetsEveryElement : Obligations.ResetSetsEveryElement := fun s =>
  ⟨s.hostReset, rfl, rfl, fun _ => readByte_hostReset_font s, fun _ h _ => readByte_hostReset_above_font s h,
    getV_hostReset s, fun _ => slot_hostReset s, rfl, rfl, rfl, rfl, rfl, rfl, fun px py _ _ => pixel_replicate px py,
    rfl, rfl, rfl, rfl, rfl, rfl, rfl, rfl, rfl⟩

theorem hostReset_hostReset (s : State) : s.hostReset.hostReset = s.hostReset := rfl

/-- LoadProgram starts with a Reset, so one before it adds nothing (R253). -/
theorem loadProgram_hostReset (s : State) (src : Option (List Byte)) : s.hostReset.loadProgram src = s.loadProgram src := by
  unfold State.loadProgram
  cases loadable src with
  | none => exact hostReset_hostReset s
  | some b => rfl

/-- Settles O7, by what Reset does before another Reset, before LoadProgram, and to the font region. -/
theorem resetLaws : Obligations.ResetLaws := fun s src =>
  have hload := loadProgram_hostReset s src
  ⟨hostReset_hostReset s, hload, by simp only [applyAction, hload], fun _ => readByte_hostReset_font s, rfl⟩

end Sys2Proof.Proofs
end
